-- ==== Sys2Proof/Word.lean ====
section
/-! DEFINITION. The words of the HD44780 4-bit protocol engine: the nibble, the byte, the 10-bit request word, the data mode
of a send, and the pair the LCD controller latches (00_scope.md R11, R12; 30_encoding.md R45, R48). -/

namespace Sys2Proof

/-- A 4-bit value `n[3:0]` (R11). -/
abbrev Nibble := BitVec 4

/-- The 8-bit data of a transfer (R15). -/
abbrev Byte := BitVec 8

/-- The request word `req_word[9:0]` (R45). -/
abbrev ReqWord := BitVec 10

/-- `DataMode`, the second argument of the source's `send` (R12). -/
inductive DataMode where
  | command
  | char
  deriving DecidableEq, Repr

/-- The RS level of a mode: low for `Command`, high for `Char` (R48). -/
def DataMode.level : DataMode → Bool
  | .command => false
  | .char => true

/-- One latched pair: the levels `(rs, db)` on the lines at a falling edge of EN (R12, R70). -/
structure Latch where
  rs : Bool
  db : Nibble
  deriving DecidableEq, Repr, Inhabited

end Sys2Proof
end

