-- ==== Sys2Proof/Config.lean ====
section
/-! DEFINITION. What an integration fixes (the parameter table of 00_scope.md R6) and what the spec leaves open as a value
(93_implementation_defined.md U2). The ranges of the table are checked in WellFormed.lean. -/

namespace Sys2Proof

/-- The parameter table of R6, as plain numbers, legal or not. `tTick` is in whole nanoseconds (log 13) and is read by no
rule of the block (R118). -/
structure RawParams where
  /-- `T_TICK` -/
  tTick : Nat
  /-- `N_EN_LOW` -/
  nEnLow : Nat
  /-- `N_EN_HIGH` -/
  nEnHigh : Nat
  /-- `N_SETTLE` -/
  nSettle : Nat
  /-- `N_POWERUP` -/
  nPowerup : Nat
  /-- `N_GUARD1` -/
  nGuard1 : Nat
  /-- `N_GUARD2` -/
  nGuard2 : Nat
  /-- `N_GUARD3` -/
  nGuard3 : Nat
  /-- `C_NIB_RESET` -/
  cNibReset : Nibble
  /-- `C_NIB_4BIT` -/
  cNib4Bit : Nibble
  /-- `C_FUNCTION_SET` -/
  cFunctionSet : Byte
  /-- `C_ENTRY_MODE` -/
  cEntryMode : Byte
  /-- `C_DISPLAY_CTRL` -/
  cDisplayCtrl : Byte
  /-- `C_CLEAR` -/
  cClear : Byte
  /-- `TMR_W` -/
  tmrW : Nat
  deriving DecidableEq, Repr

/-- The "default" column of R6. The four command bytes are the spec's general-knowledge defaults (R54, GK1; PRESUMED, log 2). -/
def RawParams.default : RawParams where
  tTick := 1000
  nEnLow := 1
  nEnHigh := 1
  nSettle := 100
  nPowerup := 40000
  nGuard1 := 4500
  nGuard2 := 100
  nGuard3 := 0
  cNibReset := 0x3
  cNib4Bit := 0x2
  cFunctionSet := 0x28
  cEntryMode := 0x06
  cDisplayCtrl := 0x0C
  cClear := 0x01
  tmrW := 16

/-- FREE VALUE (U2, R101(a)): the pair latched by the `k`-th falling edge of EN that a reset has caused. The spec gives it
no value ("any `(rs, db)`"), so nothing is known of it (log 9). -/
opaque Config.freeLatchedPair : Nat → Latch

end Sys2Proof
end

