-- ==== Sys2Proof/Syntax.lean ====
section
/-! DEFINITION. The three requests of the block, one constructor per row of spec/opcode_table.json (30_encoding.md R46). -/

namespace Sys2Proof

/-- A request as the block understands it. INIT has no operand: its nine low bits are ignored (R50), and the source's
`geometry` is read by no step (R73). -/
inductive Instr where
  /-- `SEND.CMD value` (R63) -/
  | sendCmd (value : Byte)
  /-- `SEND.CHR value` (R64) -/
  | sendChr (value : Byte)
  /-- `INIT` (R73) -/
  | init
  deriving DecidableEq, Repr

end Sys2Proof
end

