-- ==== Sys2Proof/WellFormed.lean ====
section
/-! DEFINITION. Well-formedness: the ranges of the parameter table (00_scope.md R6, R8), the table with its proofs
(93_implementation_defined.md U5), and the well-formed requests (all of them: 30_encoding.md R49, R51). -/

namespace Sys2Proof

/-- The dwell counts the timer must hold (R8). -/
def RawParams.dwells (p : RawParams) : List Nat :=
  [p.nEnLow, p.nEnHigh, p.nPowerup, p.nSettle + max p.nGuard1 (max p.nGuard2 p.nGuard3)]

/-- The legal ranges of R6. Guard counts may be 0; nibble and byte widths are in the types. -/
abbrev RawParams.Legal (p : RawParams) : Prop :=
  0 < p.tTick ∧ 1 ≤ p.nEnLow ∧ 1 ≤ p.nEnHigh ∧ 1 ≤ p.nSettle ∧ 1 ≤ p.nPowerup ∧ ∀ n ∈ p.dwells, n < 2 ^ p.tmrW

/-- The parameters of a block: the table with the proof of its ranges, so that no block has a parameter outside its range
(U5: "`Params` carries proofs of the ranges"). -/
structure Params extends RawParams where
  legal : toRawParams.Legal
  deriving DecidableEq, Repr

/-- Build the parameters; a table with a number outside its range is refused (R6). -/
def Params.ofRaw (p : RawParams) : Option Params :=
  if h : p.Legal then some ⟨p, h⟩ else none

/-- The defaults of R6, which are legal. -/
def Params.default : Params := ⟨RawParams.default, by decide⟩

/-- Every request is well formed: every byte is legal in both modes (R49) and there is no illegal encoding (R51). -/
def Instr.wf : Instr → Bool
  | .sendCmd _ => true
  | .sendChr _ => true
  | .init => true

end Sys2Proof
end

