-- ==== Sys2Proof/Decode.lean ====
section
/-! DEFINITION. The request word and its decoding (30_encoding.md R45, R46, R50 to R52), the table of the three rows, the
encoder, and the host's numbering of a word. Decoding is total: every 10-bit word is a request and nothing is rejected
(R51). -/

namespace Sys2Proof

/-- Bit 9, `init` (R45). -/
def reqInit (w : ReqWord) : Bool := w.getLsbD 9

/-- Bit 8, `mode`, the RS level of a send (R45, R48). -/
def reqMode (w : ReqWord) : Bool := w.getLsbD 8

/-- Bits 7:0, `value` (R45). -/
def reqValue (w : ReqWord) : Byte := w.extractLsb' 0 8

/-- Decoding (R45, R46): `init` first, then `mode`. -/
def decode (w : ReqWord) : Instr :=
  if reqInit w then .init
  else if reqMode w then .sendChr (reqValue w)
  else .sendCmd (reqValue w)

/-- The canonical word of a request (R46; INIT is spelled 0x200, R50). -/
def encode : Instr → ReqWord
  | .sendCmd v => 0b00#2 ++ v
  | .sendChr v => 0b01#2 ++ v
  | .init => 0x200#10

/-- The source's call `send(v, m)` (R55). -/
def sendCall (v : Byte) : DataMode → Instr
  | .command => .sendCmd v
  | .char => .sendChr v

/-- One row of the opcode table: a word `w` selects it with `(w & mask) == match` (R46). -/
structure OpcodeRow where
  mnemonic : String
  pattern : ReqWord
  mask : ReqWord
  deriving DecidableEq, Repr

/-- Does the word select the row (R46)? -/
def OpcodeRow.selects (r : OpcodeRow) (w : ReqWord) : Bool := w &&& r.mask == r.pattern

/-- The table of R46. -/
def opcodeTable : List OpcodeRow :=
  [⟨"SEND.CMD", 0x000, 0x300⟩, ⟨"SEND.CHR", 0x100, 0x300⟩, ⟨"INIT", 0x200, 0x200⟩]

/-- The mnemonic of a request (R46, R55). -/
def Instr.mnemonic : Instr → String
  | .sendCmd _ => "SEND.CMD"
  | .sendChr _ => "SEND.CHR"
  | .init => "INIT"

/-- The request port has ten wires: of a wider number only bits 9:0 reach it (log 16). -/
def portWord (w : Nat) : ReqWord := BitVec.ofNat 10 w

/-- The host's question: the instruction the decoder reads from a word numbered as spec/opcode_table.json numbers it. A
request is one word (R52), so no bits follow the `nbits` given; it has no byte order (R45). -/
def decodeTableWord (_nbits w : Nat) : Option Instr := some (decode (portWord w))

end Sys2Proof
end

