-- ==== Sys2Proof/Machine/State.lean ====
section
/-! DEFINITION. The state of the block (10_state.md R13 to R28): its registers, the ports it samples, and the machine around
them (the static parameters, the inputs still to come, the ghost history `Latched`). Plain data. -/

namespace Sys2Proof.Machine

/-- The phase `ph` of the sequencer, seven values (R17). Code 7 does not exist (U8, log 7). -/
inductive Phase where
  /-- `IDLE`: no request in flight -/
  | idle
  /-- `WAIT`: initializer step 0, the power-up wait -/
  | wait
  /-- `RS`: RS selected -/
  | rs
  /-- `DB`: data lines driven with one nibble -/
  | db
  /-- `ENLO`: EN held low -/
  | enlo
  /-- `ENHI`: EN held high -/
  | enhi
  /-- `SETTLE`: EN held low after its fall -/
  | settle
  deriving DecidableEq, Repr

/-- The registers of the block, the `S` of R62. -/
structure Regs where
  /-- drives line RS (R14) -/
  rs : Bool
  /-- drives line EN (R14) -/
  en : Bool
  /-- drives DB4 (`db[0]`) to DB7 (`db[3]`) (R14) -/
  db : Nibble
  /-- the byte being transferred (R15) -/
  val : Byte
  /-- 0: high nibble, 1: low nibble (R16) -/
  half : Bool
  /-- the phase (R17) -/
  ph : Phase
  /-- the dwell timer, a down-counter (R18; a natural number by D19, log 6) -/
  tmr : Nat
  /-- an INIT is in flight (R20) -/
  inInit : Bool
  /-- the initializer step in progress, 0 to 8 (R20) -/
  istep : Fin 9
  /-- an INIT has completed (R21) -/
  initDone : Bool
  deriving DecidableEq, Repr

/-- The reset value of every register (R28). -/
def Regs.reset : Regs where
  rs := false
  en := false
  db := 0
  val := 0
  half := false
  ph := .idle
  tmr := 0
  inInit := false
  istep := 0
  initDone := false

/-- The input ports as sampled at one clock edge (R23). -/
structure Ports where
  rst : Bool
  reqValid : Bool
  reqWord : ReqWord
  deriving DecidableEq, Repr

/-- What the outside does at the coming edges (log 3). -/
inductive Stimulus where
  /-- the levels of the input ports at one edge -/
  | edge (p : Ports)
  /-- a requester holds `req_valid` with this word, reset released, until it is accepted (R61, R95) -/
  | offer (w : ReqWord)
  deriving DecidableEq, Repr

/-- The machine: the block's registers, and around them what is not a register. -/
structure State where
  /-- the static parameter table (R6); no step writes it (R24, log 1) -/
  params : Params
  /-- the registers (R13 to R21) -/
  regs : Regs
  /-- the inputs to come, the nearest first; after the last, reset is released and nothing is offered (log 3) -/
  inputs : List Stimulus
  /-- GHOST: `Latched` in time order (R70); no rule reads it (R97, log 8) -/
  latched : List Latch
  /-- MODEL: how many free values have been used (U2, log 9) -/
  freeCount : Nat
  deriving DecidableEq, Repr

/-- Why the machine would stop with a fault: it never does. The block "raises no synchronous exception, sets no fault bit"
(R85), so the type has no constructor (log 15). Safe: nothing is hidden, every step answers a next state. -/
inductive Fault : Type
  deriving DecidableEq, Repr

/-- Why an instruction would have no meaning. -/
inductive Refusal where
  /-- Raised by an arm of `exec` whose instruction has no meaning yet. No arm raises it: the block "refuses no request"
  (R85). Safe. -/
  | notModelled (mnemonic : String)
  deriving DecidableEq, Repr

/-- The machine right after reset (R28, R99): the registers at their reset values, the default parameters (log 1), nothing
offered (log 3), nothing latched (log 8). -/
def State.reset : State where
  params := .default
  regs := .reset
  inputs := []
  latched := []
  freeCount := 0

end Sys2Proof.Machine
end

