-- ==== Sys2Proof/Machine/Operands.lean ====
section
/-! DEFINITION. The operands of a transfer: the two nibbles of a byte and their place on the lines (20_memory.md R33, R34;
30_encoding.md R47), the initializer's step table (41_initializer.md R74), and the phase codes (10_state.md R17). -/

namespace Sys2Proof.Machine

/-- `v[7:4]`, the first nibble of a byte (R33). -/
def hiNibble (v : Byte) : Nibble := v.extractLsb' 4 4

/-- `v[3:0]`, the second nibble of a byte (R33). -/
def loNibble (v : Byte) : Nibble := v.extractLsb' 0 4

/-- The code of a phase in `ph[2:0]` (R17). -/
def Phase.code : Phase → BitVec 3
  | .idle => 0
  | .wait => 1
  | .rs => 2
  | .db => 3
  | .enlo => 4
  | .enhi => 5
  | .settle => 6

/-- The kind of an initializer step (R53, R74). -/
inductive StepKind where
  | wait
  | nib
  | byte
  deriving DecidableEq, Repr

/-- `step_kind(k)` (R74). -/
def stepKind (k : Fin 9) : StepKind :=
  match k with
  | 0 => .wait
  | 1 | 2 | 3 | 4 => .nib
  | 5 | 6 | 7 | 8 => .byte

/-- `step_byte(k)` (R74); step 0 has none. A single nibble stands in the high half (R53). -/
def stepByte (p : Params) (k : Fin 9) : Option Byte :=
  match k with
  | 0 => none
  | 1 | 2 | 3 => some (p.cNibReset ++ 0b0000#4)
  | 4 => some (p.cNib4Bit ++ 0b0000#4)
  | 5 => some p.cFunctionSet
  | 6 => some p.cEntryMode
  | 7 => some p.cDisplayCtrl
  | 8 => some p.cClear

/-- `step_single(k)` (R74): true for the kind `NIB`, steps 1 to 4. -/
def stepSingle (k : Fin 9) : Bool := stepKind k == .nib

/-- `step_guard(k)` (R74): 0 for every step other than 1, 2, 3. -/
def stepGuard (p : Params) (k : Fin 9) : Nat :=
  match k with
  | 1 => p.nGuard1
  | 2 => p.nGuard2
  | 3 => p.nGuard3
  | 0 | 4 | 5 | 6 | 7 | 8 => 0

end Sys2Proof.Machine
end

