-- ==== Sys2Proof/Machine/Flags.lean ====
section
/-! DEFINITION. The derived signals and flags: `busy` and `req_ready` (10_state.md R22), the output ports in their fixed
order (R13, R23), and the two helpers `guard(S)` and `single(S)` of the transition function (40_transfer.md R62). -/

namespace Sys2Proof.Machine

/-- `busy = (ph != IDLE)` (R22). -/
def Regs.busy (r : Regs) : Bool := r.ph != .idle

/-- `req_ready = (ph == IDLE)` (R22). -/
def Regs.reqReady (r : Regs) : Bool := r.ph == .idle

/-- `guard(S)` (R62): the guard count added to the settle of the step in progress. -/
def Regs.guard (p : Params) (r : Regs) : Nat := if r.inInit then stepGuard p r.istep else 0

/-- `single(S)` (R62): the transfer in progress is a single nibble. -/
def Regs.single (r : Regs) : Bool := r.inInit && stepSingle r.istep

/-- The six lines by role, and their fixed order (R13). -/
inductive Line where
  | RS
  | EN
  | DB4
  | DB5
  | DB6
  | DB7
  deriving DecidableEq, Repr

/-- The order `[RS, EN, DB4, DB5, DB6, DB7]` (R13). -/
def lineOrder : List Line := [.RS, .EN, .DB4, .DB5, .DB6, .DB7]

/-- The level of a line: each is the output of a register bit (R14, R23, R47). -/
def Regs.level (r : Regs) : Line → Bool
  | .RS => r.rs
  | .EN => r.en
  | .DB4 => r.db.getLsbD 0
  | .DB5 => r.db.getLsbD 1
  | .DB6 => r.db.getLsbD 2
  | .DB7 => r.db.getLsbD 3

/-- The output ports (R23): the three status levels and the six lines in their order. -/
structure Outputs where
  reqReady : Bool
  busy : Bool
  initDone : Bool
  lines : List Bool
  deriving DecidableEq, Repr

/-- The levels of the output ports, functions of the registers alone (R22, R23, R87). -/
def Regs.outputs (r : Regs) : Outputs where
  reqReady := r.reqReady
  busy := r.busy
  initDone := r.initDone
  lines := lineOrder.map r.level

end Sys2Proof.Machine
end

