-- ==== Sys2Proof/Machine/Ops.lean ====
section
/-! DEFINITION. The shared operations: accepting a request, starting an initializer step, the end of each phase, the dwell
(40_transfer.md R61, R62), the observation of a falling edge of EN (R70), the reset edge (70_reset_and_hazards.md R99, R101),
and the sampling of the input ports. There is no operation for taking an exception: the block raises none and has no trap
entry or return (60_exceptions.md R85, R90, R91). -/

namespace Sys2Proof.Machine

/-! ## Registers -/

/-- "SEND accepted" (R62): the byte and the RS level are loaded and the transfer starts. -/
def Regs.acceptSend (m : DataMode) (v : Byte) (r : Regs) : Regs :=
  { r with val := v, rs := m.level, half := false, ph := .rs, tmr := 0 }

/-- "INIT accepted" (R62): the power-up wait starts. -/
def Regs.acceptInit (p : Params) (r : Regs) : Regs :=
  { r with inInit := true, initDone := false, istep := 0, half := false, ph := .wait, tmr := p.nPowerup - 1 }

/-- `start_step(k)` (R62). It is used for 1 to 8 only; step 0 has no byte in the table and would keep `val` (log 12). -/
def Regs.startStep (p : Params) (k : Fin 9) (r : Regs) : Regs :=
  { r with istep := k, val := (stepByte p k).getD r.val, rs := false, half := false, ph := .rs, tmr := 0 }

/-- The end of `SETTLE` (R62): on to the low nibble, to the next initializer step, or to `IDLE`. -/
def Regs.settleEnd (p : Params) (r : Regs) : Regs :=
  if r.half = false ∧ r.single = false then { r with half := true, ph := .db, db := loNibble r.val, tmr := 0 }
  else if r.inInit then
    if r.istep = 8 then { r with inInit := false, initDone := true, istep := 0, ph := .idle }
    else r.startStep p (r.istep + 1)
  else { r with ph := .idle }

/-- The end of a phase (R62). -/
def Regs.phaseEnd (p : Params) (r : Regs) : Regs :=
  match r.ph with
  | .idle => r
  | .wait => r.startStep p 1
  | .rs => { r with ph := .db, db := hiNibble r.val, tmr := 0 }
  | .db => { r with ph := .enlo, en := false, tmr := p.nEnLow - 1 }
  | .enlo => { r with ph := .enhi, en := true, tmr := p.nEnHigh - 1 }
  | .enhi => { r with ph := .settle, en := false, tmr := p.nSettle + r.guard p - 1 }
  | .settle => r.settleEnd p

/-- An edge with `rst = 0` at which nothing is accepted (R62): `IDLE` holds, a dwell counts down, or a phase ends. -/
def Regs.advance (p : Params) (r : Regs) : Regs :=
  if r.ph = .idle then r
  else if r.tmr ≠ 0 then { r with tmr := r.tmr - 1 }
  else r.phaseEnd p

/-! ## One clock edge of the machine -/

/-- The registers take new values at an edge without reset; a change of `en` from 1 to 0 is a falling edge, and the pair on
the lines joins `Latched` (R70). -/
def State.commit (s : State) (r : Regs) : State :=
  { s with
    regs := r
    latched := if s.regs.en = true ∧ r.en = false then s.latched ++ [⟨r.rs, r.db⟩] else s.latched }

/-- An edge with `rst = 0` at which a request is offered: accepted in `IDLE`, giving the registers `accepted`; ignored
otherwise, the request in flight going on (R61). -/
def State.offered (s : State) (accepted : Regs) : State :=
  s.commit (if s.regs.ph = .idle then accepted else s.regs.advance s.params)

/-- An edge with `rst = 0` at which nothing is offered (R62). -/
def State.unoffered (s : State) : State := s.commit (s.regs.advance s.params)

/-- An edge with `rst = 1` (R99): every register takes its reset value. If EN was high it falls, and `Latched` gains an entry
of unspecified value (R101(a)), a free value. -/
def State.resetEdge (s : State) : State :=
  { s with
    regs := .reset
    latched := if s.regs.en then s.latched ++ [Config.freeLatchedPair s.freeCount] else s.latched
    freeCount := if s.regs.en then s.freeCount + 1 else s.freeCount }

/-! ## Sampling the ports -/

/-- The ports with reset released and nothing offered. `req_word` is then ignored (R61). -/
def Ports.quiet : Ports := ⟨false, false, 0⟩

/-- The input ports as sampled at the next edge (R61, R112). -/
def State.ports (s : State) : Ports :=
  match s.inputs with
  | [] => .quiet
  | .edge p :: _ => p
  | .offer w :: _ => ⟨false, true, w⟩

/-- The inputs that remain after the next edge: an edge's levels are over, an offer ends when it is accepted, in `IDLE`
(R61). -/
def State.consumeInput (s : State) : State :=
  { s with
    inputs :=
      match s.inputs with
      | [] => []
      | .edge _ :: rest => rest
      | .offer w :: rest => if s.regs.ph = .idle then rest else .offer w :: rest }

/-- A state in which the next edge accepts what is offered: if a request is in flight the sequencer is put in `IDLE`, every
register of the sequencer's position as `IDLE` has it (R29(a)). Not an operation of the block: only the placing of a word
uses it (log 4). -/
def State.atIdle (s : State) : State :=
  if s.regs.ph = .idle then s
  else { s with regs := { s.regs with ph := .idle, tmr := 0, inInit := false, istep := 0, en := false } }

end Sys2Proof.Machine
end

