-- ==== Sys2Proof/Machine/Initializer.lean ====
section
/-! DEFINITION. The initializer family: INIT (41_initializer.md R73). Its meaning is the clock edge, with reset released, at
which it is offered (log 5); the nine steps of R74 are then performed by the sequencer (R62). -/

namespace Sys2Proof.Machine

/-- `INIT`, the source's `initialize(bus, geometry)` (R73). -/
def execInit (s : State) : Host.Outcome State Fault Refusal :=
  .next (s.offered (s.regs.acceptInit s.params))

end Sys2Proof.Machine
end

