-- ==== Sys2Proof/Machine/Transfer.lean ====
section
/-! DEFINITION. The transfer family: SEND.CMD and SEND.CHR (40_transfer.md R63, R64). A meaning is the clock edge, with reset
released, at which the request is offered (log 5): in `IDLE` it is accepted and performed from that edge on by the sequencer
(R62); while another request is in flight it waits. -/

namespace Sys2Proof.Machine

/-- `SEND.CMD value`, the source's `send(value, Command)` (R63). -/
def execSendCmd (value : Byte) (s : State) : Host.Outcome State Fault Refusal :=
  .next (s.offered (s.regs.acceptSend .command value))

/-- `SEND.CHR value`, the source's `send(value, Char)` (R64). -/
def execSendChr (value : Byte) (s : State) : Host.Outcome State Fault Refusal :=
  .next (s.offered (s.regs.acceptSend .char value))

end Sys2Proof.Machine
end

