-- ==== Sys2Proof/Machine/Dispatch.lean ====
section
/-! DEFINITION. Dispatch: one arm per request (30_encoding.md R46). -/

namespace Sys2Proof.Machine

def exec (i : Instr) (s : State) : Host.Outcome State Fault Refusal :=
  match i with
  | .sendCmd value => Sys2Proof.Machine.execSendCmd value s
  | .sendChr value => Sys2Proof.Machine.execSendChr value s
  | .init => Sys2Proof.Machine.execInit s

end Sys2Proof.Machine
end

