-- ==== Sys2Proof/Machine/Step.lean ====
section
/-! DEFINITION. The step: one rising edge of `clk` (40_transfer.md R62), the tests in the order of 60_exceptions.md R89. -/

namespace Sys2Proof.Machine

/-- One clock edge: reset wins; otherwise an offered word is decoded and executed; otherwise the sequencer goes on. -/
def step (s : State) : Host.Outcome State Fault Refusal :=
  if s.ports.rst then .next s.consumeInput.resetEdge
  else if s.ports.reqValid then exec (decode s.ports.reqWord) s.consumeInput
  else .next s.consumeInput.unoffered

/-- The state in which a requester offers the word, so that the very next edge accepts it (log 4, log 16). -/
def State.withFetchWord (s : State) (_nbits w : Nat) : State :=
  { s.atIdle with inputs := .offer (portWord w) :: s.inputs }

end Sys2Proof.Machine
end

