-- ==== Sys2Proof/Machine/Assembly.lean ====
section
/-! DEFINITION. The spec's own text for requests (30_encoding.md R55): one request a line, `SEND.CMD <byte>`, `SEND.CHR <byte>`
or `INIT`; a byte is `0xNN`, a decimal number 0 to 255 or a quoted ASCII character; a requester label and a comment may stand
around it. Log 19 says what R55 leaves open of it. -/

namespace Sys2Proof.Machine

/-- Why a line is no line of the syntax. -/
inductive AsmError where
  | unknownRequest
  | badByte
  | badLine
  deriving DecidableEq, Repr

/-- A line: the requester's label and the request, each if there is one (R55). -/
structure AsmLine where
  label : Option (List Char)
  request : Option Instr
  deriving DecidableEq, Repr

/-- A token followed by the tokens after it; an empty one is none. -/
def withToken (token : List Char) (rest : List (List Char)) : List (List Char) :=
  if token = [] then rest else token :: rest

/-- The tokens of a line: separated by blanks, a colon a token of its own, a quoted character kept whole, and a `;` outside
quotes the start of a comment (R55). -/
def tokens (token : List Char) : List Char → List (List Char)
  | '\'' :: c :: '\'' :: rest => tokens (token ++ ['\'', c, '\'']) rest
  | ';' :: _ => withToken token []
  | ':' :: rest => withToken token ([':'] :: tokens [] rest)
  | ' ' :: rest => withToken token (tokens [] rest)
  | '\t' :: rest => withToken token (tokens [] rest)
  | c :: rest => tokens (token ++ [c]) rest
  | [] => withToken token []

/-- The value of a decimal digit. -/
def digit (c : Char) : Option Nat :=
  if 48 ≤ c.toNat ∧ c.toNat ≤ 57 then some (c.toNat - 48) else none

/-- The value of a hexadecimal digit. -/
def hexDigit (c : Char) : Option Nat :=
  if 48 ≤ c.toNat ∧ c.toNat ≤ 57 then some (c.toNat - 48)
  else if 65 ≤ c.toNat ∧ c.toNat ≤ 70 then some (c.toNat - 55)
  else if 97 ≤ c.toNat ∧ c.toNat ≤ 102 then some (c.toNat - 87)
  else none

/-- The value of a string of decimal digits read so far and to come. -/
def decimal (n : Nat) : List Char → Option Nat
  | [] => some n
  | c :: rest =>
    match digit c with
    | some d => decimal (10 * n + d) rest
    | none => none

/-- A number that fits a byte. -/
def byteOf (n : Nat) : Option Byte := if n < 256 then some (BitVec.ofNat 8 n) else none

/-- `<byte>` (R55). -/
def parseByte : List Char → Option Byte
  | [] => none
  | ['0', 'x', h, l] =>
    match hexDigit h, hexDigit l with
    | some a, some b => byteOf (16 * a + b)
    | _, _ => none
  | ['\'', c, '\''] => if c.toNat < 128 then byteOf c.toNat else none
  | c :: rest => (decimal 0 (c :: rest)).bind byteOf

/-- A request from its tokens (R55). -/
def parseRequest : List (List Char) → Except AsmError (Option Instr)
  | [] => .ok none
  | [name] => if name = "INIT".toList then .ok (some .init) else .error .unknownRequest
  | [name, b] =>
    if name = "SEND.CMD".toList ∨ name = "SEND.CHR".toList then
      match parseByte b with
      | some v => .ok (some (sendCall v (if name = "SEND.CHR".toList then .char else .command)))
      | none => .error .badByte
    else .error .unknownRequest
  | _ :: _ :: _ :: _ => .error .badLine

/-- A line from its text (R55). -/
def parseLine (text : List Char) : Except AsmError AsmLine :=
  match tokens [] text with
  | label :: [':'] :: rest => (parseRequest rest).map fun r => ⟨some label, r⟩
  | ts => (parseRequest ts).map fun r => ⟨none, r⟩

/-- The lines of a program from their texts (R55). -/
def parseProgram : List (List Char) → Except AsmError (List AsmLine)
  | [] => .ok []
  | text :: rest =>
    match parseLine text, parseProgram rest with
    | .ok line, .ok lines => .ok (line :: lines)
    | .error e, _ => .error e
    | .ok _, .error e => .error e

/-- The requests of one requester, in order: the lines with its label, or those without one (R55, R95). -/
def requestsOf (label : Option (List Char)) (lines : List AsmLine) : List Instr :=
  lines.filterMap fun line => if line.label = label then line.request else none

/-- A hexadecimal digit, upper case. -/
def hexChar (n : Nibble) : Char := Char.ofNat (if n.toNat < 10 then 48 + n.toNat else 55 + n.toNat)

/-- The text of a byte, `0xNN`. -/
def printByte (v : Byte) : List Char := ['0', 'x', hexChar (v.extractLsb' 4 4), hexChar (v.extractLsb' 0 4)]

/-- The text of a request. -/
def printRequest : Instr → List Char
  | .sendCmd v => "SEND.CMD ".toList ++ printByte v
  | .sendChr v => "SEND.CHR ".toList ++ printByte v
  | .init => "INIT".toList

end Sys2Proof.Machine
end

