-- ==== Sys2Proof/Machine/Timing.lean ====
section
/-! DEFINITION. Time in ticks: the tick counts of the source's minimum durations (00_scope.md R5, R6; 70_reset_and_hazards.md
R107), the latencies (R72, R84, R115 to R117), and the waveforms of a SEND (40_transfer.md R65) and of INIT
(41_initializer.md R76) as tables of register values by relative cycle. The machine does not use this file: claims compare it
with the machine. -/

namespace Sys2Proof.Machine

/-! ## From durations to ticks -/

/-- `N_x = max(1, ceil(T_x / T_TICK))`, both durations in nanoseconds (R5, R107). -/
def ticksFor (t tTick : Nat) : Nat := max 1 ((t + (tTick - 1)) / tTick)

/-- The source's minimum durations in nanoseconds (R6, column "source minimum"). -/
structure SourceMinima where
  enLow : Nat := 1000
  enHigh : Nat := 1000
  settle : Nat := 100000
  powerup : Nat := 40000000
  guard1 : Nat := 4500000
  guard2 : Nat := 100000
  deriving DecidableEq, Repr

/-- The table of R6 at another tick: every count is the source minimum in ticks; the third guard has no stated minimum. -/
def RawParams.forTick (tTick tmrW : Nat) (m : SourceMinima := {}) : RawParams :=
  { RawParams.default with
    tTick := tTick
    nEnLow := ticksFor m.enLow tTick
    nEnHigh := ticksFor m.enHigh tTick
    nSettle := ticksFor m.settle tTick
    nPowerup := ticksFor m.powerup tTick
    nGuard1 := ticksFor m.guard1 tTick
    nGuard2 := ticksFor m.guard2 tTick
    nGuard3 := 0
    tmrW := tmrW }

/-! ## Latencies -/

/-- `Pn`, the nibble period (R65). -/
def nibblePeriod (p : Params) : Nat := 1 + p.nEnLow + p.nEnHigh + p.nSettle

/-- The cycles a SEND occupies the block (R72, R115). -/
def sendCycles (p : Params) : Nat := 1 + 2 * nibblePeriod p

/-- The cycles INIT occupies the block (R84, R116). -/
def initCycles (p : Params) : Nat :=
  p.nPowerup + 4 * (1 + nibblePeriod p) + p.nGuard1 + p.nGuard2 + p.nGuard3 + 4 * (1 + 2 * nibblePeriod p)

/-- The cycles a request occupies the block. -/
def requestCycles (p : Params) : Instr → Nat
  | .sendCmd _ => sendCycles p
  | .sendChr _ => sendCycles p
  | .init => initCycles p

/-- The dwell of a phase in cycles (R17); `IDLE` has none. -/
def Regs.dwell (p : Params) (r : Regs) : Nat :=
  match r.ph with
  | .idle => 0
  | .wait => p.nPowerup
  | .rs => 1
  | .db => 1
  | .enlo => p.nEnLow
  | .enhi => p.nEnHigh
  | .settle => p.nSettle + r.guard p

/-- The length of an initializer step in cycles (R76). -/
def stepLength (p : Params) (k : Fin 9) : Nat :=
  match stepKind k with
  | .wait => p.nPowerup
  | .nib => 1 + nibblePeriod p + stepGuard p k
  | .byte => 1 + 2 * nibblePeriod p

/-- The first relative cycle of step `k` of INIT; at 9, the cycle `IDLE` is reached (R76). -/
def stepStart (p : Params) : Nat → Nat
  | 0 => 0
  | k + 1 => stepStart p k + stepLength p (Fin.ofNat 9 k)

/-! ## Waveforms -/

/-- One nibble period, cycle `i` of it, its settle lengthened by `g`: the rows `DB`, `ENLO`, `ENHI`, `SETTLE` of R65. The
timer counts each phase down to 0 (R18). `r` holds the registers that do not move. -/
def nibbleWave (p : Params) (g : Nat) (half : Bool) (n : Nibble) (r : Regs) (i : Nat) : Regs :=
  let low := p.nEnLow
  let high := low + p.nEnHigh
  if i = 0 then { r with half := half, db := n, en := false, ph := .db, tmr := 0 }
  else if i ≤ low then { r with half := half, db := n, en := false, ph := .enlo, tmr := low - i }
  else if i ≤ high then { r with half := half, db := n, en := true, ph := .enhi, tmr := high - i }
  else { r with half := half, db := n, en := false, ph := .settle, tmr := high + p.nSettle + g - i }

/-- A transfer, cycle `i` of it: one `RS` cycle, then the high nibble, then (`g` being 0) the low nibble. -/
def transferWave (p : Params) (g : Nat) (r : Regs) (i : Nat) : Regs :=
  if i = 0 then { r with half := false, ph := .rs, tmr := 0 }
  else if i ≤ nibblePeriod p + g then nibbleWave p g false (hiNibble r.val) r (i - 1)
  else nibbleWave p 0 true (loNibble r.val) r (i - 1 - nibblePeriod p)

/-- The registers in relative cycle `i` of a SEND accepted with the registers `r` before it (R65). -/
def sendWave (p : Params) (m : DataMode) (v : Byte) (r : Regs) (i : Nat) : Regs :=
  let r0 := { r with val := v, rs := m.level }
  if i < sendCycles p then transferWave p 0 r0 i
  else { r0 with half := true, ph := .idle, tmr := 0, db := loNibble v }

/-- The nibble left on the data lines by initializer step `k`: the only one of a `NIB` step, the low one of a `BYTE` step;
step 0 changes no line (R74, R76). -/
def stepLastNibble (p : Params) (r : Regs) (k : Fin 9) : Nibble :=
  match stepByte p k with
  | none => r.db
  | some b => if stepSingle k then hiNibble b else loNibble b

/-- The registers in cycle `i` of step `k` of an INIT accepted with the registers `r` before it (R76). -/
def initWave (p : Params) (r : Regs) (k : Fin 9) (i : Nat) : Regs :=
  let r0 := { r with inInit := true, initDone := false, istep := k }
  match stepByte p k with
  | none => { r0 with half := false, ph := .wait, tmr := p.nPowerup - 1 - i }
  | some b => transferWave p (stepGuard p k) { r0 with val := b, rs := false, db := stepLastNibble p r (k - 1) } i

end Sys2Proof.Machine
end

