-- ==== Sys2Proof/Machine/Events.lean ====
section
/-! DEFINITION. Level E (00_scope.md R10): the events of an operation and their meaning (40_transfer.md R57 to R60,
41_initializer.md R75), what the LCD controller latches (R70, R83), the times Level T gives the events (R71), and which timed
behaviours conform (R7). Also the line writes of one edge at Level T, which R71 compares with the events. -/

namespace Sys2Proof.Machine

/-- The line state `L = (rs, en, db)` (R57). -/
structure Lines where
  rs : Bool
  en : Bool
  db : Nibble
  deriving DecidableEq, Repr

/-- The line state of the registers (R14). -/
def Regs.lines (r : Regs) : Lines := ⟨r.rs, r.en, r.db⟩

/-- A write of a line register: the `Set` events of R57. -/
inductive LineWrite where
  | setRS (b : Bool)
  | setDB (n : Nibble)
  | setEN (b : Bool)
  deriving DecidableEq, Repr

/-- An event (R57). -/
inductive Event where
  | set (w : LineWrite)
  /-- the line state does not change for at least `n` ticks -/
  | hold (n : Nat)
  deriving DecidableEq, Repr

/-- The effect of a write on the lines (R57). -/
def Lines.write (l : Lines) : LineWrite → Lines
  | .setRS b => { l with rs := b }
  | .setDB n => { l with db := n }
  | .setEN b => { l with en := b }

/-- The lines after a list of writes, in order. -/
def Lines.writes (l : Lines) (ws : List LineWrite) : Lines := ws.foldl Lines.write l

/-- `Hold(n)`; `Hold(0)` is no event (R57). -/
def holdFor : Nat → List Event
  | 0 => []
  | n + 1 => [.hold (n + 1)]

/-- `NIBBLE(n)` (R58). -/
def nibbleEvents (p : Params) (n : Nibble) : List Event :=
  [.set (.setDB n), .set (.setEN false)] ++ holdFor p.nEnLow ++ [.set (.setEN true)] ++ holdFor p.nEnHigh
    ++ [.set (.setEN false)] ++ holdFor p.nSettle

/-- `BYTE(m, v)` (R59). -/
def byteEvents (p : Params) (m : DataMode) (v : Byte) : List Event :=
  [.set (.setRS m.level)] ++ nibbleEvents p (hiNibble v) ++ nibbleEvents p (loNibble v)

/-- `NIBCMD(n, g)` (R60). -/
def nibCmdEvents (p : Params) (n : Nibble) (g : Nat) : List Event :=
  [.set (.setRS false)] ++ nibbleEvents p n ++ holdFor g

/-- The Level E denotation of INIT (R75). -/
def initEvents (p : Params) : List Event :=
  holdFor p.nPowerup
    ++ nibCmdEvents p p.cNibReset p.nGuard1
    ++ nibCmdEvents p p.cNibReset p.nGuard2
    ++ nibCmdEvents p p.cNibReset p.nGuard3
    ++ nibCmdEvents p p.cNib4Bit 0
    ++ byteEvents p .command p.cFunctionSet
    ++ byteEvents p .command p.cEntryMode
    ++ byteEvents p .command p.cDisplayCtrl
    ++ byteEvents p .command p.cClear

/-- The Level E denotation of a request (R63, R64, R73). -/
def requestEvents (p : Params) : Instr → List Event
  | .sendCmd v => byteEvents p .command v
  | .sendChr v => byteEvents p .char v
  | .init => initEvents p

/-! ## What the controller latches -/

/-- `Latched` of an event list performed from the lines `l` (R70). -/
def latchedOf (l : Lines) : List Event → List Latch
  | [] => []
  | .hold _ :: es => latchedOf l es
  | .set w :: es =>
    let l' := l.write w
    if l.en = true ∧ l'.en = false then ⟨l'.rs, l'.db⟩ :: latchedOf l' es else latchedOf l' es

/-- The two entries of a byte sent with RS at `m` (R63, R64, R70). -/
def bytePairs (m : DataMode) (v : Byte) : List Latch := [⟨m.level, hiNibble v⟩, ⟨m.level, loNibble v⟩]

/-- The `Latched` contribution of a request (R63, R64, R83). -/
def contribution (p : Params) : Instr → List Latch
  | .sendCmd v => bytePairs .command v
  | .sendChr v => bytePairs .char v
  | .init =>
    [⟨false, p.cNibReset⟩, ⟨false, p.cNibReset⟩, ⟨false, p.cNibReset⟩, ⟨false, p.cNib4Bit⟩]
      ++ bytePairs .command p.cFunctionSet ++ bytePairs .command p.cEntryMode
      ++ bytePairs .command p.cDisplayCtrl ++ bytePairs .command p.cClear

/-! ## Timed behaviours -/

/-- The times at which Level T makes the `Set` events of a list (R71), and last the time of the return to `IDLE`. `t` is the
edge of the last `Set`, or of the acceptance if `first`; `h` is the sum of the holds since then. A `Set` comes `h` edges
later, or one edge later if it directly follows another `Set`. -/
def schedule (t h : Nat) (first : Bool) : List Event → List (Nat × LineWrite) × Nat
  | [] => ([], t + h)
  | .hold n :: es => schedule t (h + n) first es
  | .set w :: es =>
    let t' := if h = 0 ∧ first = false then t + 1 else t + h
    let rest := schedule t' 0 false es
    ((t', w) :: rest.1, rest.2)

/-- Does a timed list of line writes, ended at `tEnd`, behave as the event list (R57, R7)? The same writes in the same order,
each at or after the last one by at least the holds between them, the last holds over at `tEnd`. No upper bound (R7). -/
def conforms (t h : Nat) (tEnd : Nat) : List Event → List (Nat × LineWrite) → Bool
  | [], [] => t + h ≤ tEnd
  | [], _ :: _ => false
  | .hold n :: es, ws => conforms t (h + n) tEnd es ws
  | .set _ :: _, [] => false
  | .set w :: es, (t', w') :: ws => w == w' && t + h ≤ t' && conforms t' 0 tEnd es ws

/-! ## The line writes of one edge at Level T -/

/-- The line registers assigned at the end of a phase (R62), redundant assignments among them. -/
def Regs.phaseEndWrites (r : Regs) : List LineWrite :=
  match r.ph with
  | .idle => []
  | .wait => [.setRS false]
  | .rs => [.setDB (hiNibble r.val)]
  | .db => [.setEN false]
  | .enlo => [.setEN true]
  | .enhi => [.setEN false]
  | .settle =>
    if r.half = false ∧ r.single = false then [.setDB (loNibble r.val)]
    else if r.inInit = true ∧ r.istep ≠ 8 then [.setRS false]
    else []

/-- The line registers assigned when a request is accepted (R62). -/
def acceptWrites : Instr → List LineWrite
  | .sendCmd _ => [.setRS false]
  | .sendChr _ => [.setRS true]
  | .init => []

/-- The line registers assigned at the next edge (R62). At a reset edge all six lines change together (R101(a)): the order RS,
EN, DB in which the list gives the three writes is the model's (DESIGN CHOICE, log 22) and means nothing, in particular not
for what the controller latches there, which is `State.resetEdge`'s free value. -/
def State.lineWrites (s : State) : List LineWrite :=
  if s.ports.rst then [.setRS false, .setEN false, .setDB 0]
  else if s.regs.ph = .idle then
    if s.ports.reqValid then acceptWrites (decode s.ports.reqWord) else []
  else if s.regs.tmr ≠ 0 then []
  else s.regs.phaseEndWrites

end Sys2Proof.Machine
end

