-- ==== Sys2Proof/Machine/Requesters.lean ====
section
/-! DEFINITION. The requesters before the port (60_exceptions.md R95, R96; 20_memory.md R41): programs, and which sequences of
requests can reach the port. The arbiter is outside the block and its policy is open: any merge that keeps each requester's
own order. -/

namespace Sys2Proof.Machine

/-- `IsMerge programs out`: `out` is a merge of the requesters' programs that keeps the order of each (R41(d), R96). No
fairness is assumed. -/
inductive IsMerge : List (List Instr) → List Instr → Prop where
  | done (programs : List (List Instr)) (h : ∀ program ∈ programs, program = []) : IsMerge programs []
  | take (before after : List (List Instr)) (i : Instr) (program out : List Instr)
      (h : IsMerge (before ++ program :: after) out) : IsMerge (before ++ (i :: program) :: after) (i :: out)

/-- The requests offered greedily one after the other, each held until it is accepted (R61, R95). -/
def State.offering (s : State) (requests : List Instr) : State :=
  { s with inputs := requests.map fun i => .offer (encode i) }

end Sys2Proof.Machine
end

