-- ==== Sys2Proof/Machine/Tick.lean ====
section
/-! DEFINITION. The transition function of the spec as it is written, `tick(P, S, rst, req_valid, req_word)` (40_transfer.md
R62), on the bits of the request word and of `val`: no decoder, no dispatch, and none of the machine's operations. Of the
model it shares the state and the columns of the step table, which R62 takes from 41_initializer.md R74. The machine's step
does not use it: a claim says that the two agree. -/

namespace Sys2Proof.Machine

/-- `guard(S) = if S.in_init = 1 then step_guard(S.istep) else 0` (R62). -/
def tickGuard (p : Params) (r : Regs) : Nat :=
  match r.inInit with
  | true => stepGuard p r.istep
  | false => 0

/-- `single(S) = (S.in_init = 1) and step_single(S.istep)` (R62). -/
def tickSingle (r : Regs) : Bool :=
  match r.inInit with
  | true => stepSingle r.istep
  | false => false

/-- `start_step(k)` (R62): `istep <- k; val <- step_byte(k); rs <- 0; half <- 0; ph <- RS; tmr <- 0`. Step 0, for which it is
not used, has no byte in the table (log 12). -/
def tickStartStep (p : Params) (k : Fin 9) (r : Regs) : Regs :=
  match stepByte p k with
  | some b => { r with istep := k, val := b, rs := false, half := false, ph := .rs, tmr := 0 }
  | none => { r with istep := k, rs := false, half := false, ph := .rs, tmr := 0 }

/-- `tick` (R62), line by line. -/
def tick (p : Params) (r : Regs) (rst reqValid : Bool) (reqWord : ReqWord) : Regs :=
  if rst then
    { rs := false, en := false, db := 0, val := 0, half := false, ph := .idle, tmr := 0, inInit := false, istep := 0,
      initDone := false }
  else if r.ph = .idle then
    if reqValid then
      if reqWord[9] then
        { r with inInit := true, initDone := false, istep := 0, half := false, ph := .wait, tmr := p.nPowerup - 1 }
      else
        { r with val := reqWord.truncate 8, rs := reqWord[8], half := false, ph := .rs, tmr := 0 }
    else r
  else if r.tmr ≠ 0 then { r with tmr := r.tmr - 1 }
  else
    match r.ph with
    | .idle => r
    | .wait => tickStartStep p 1 r
    | .rs => { r with ph := .db, db := r.val.extractLsb 7 4, tmr := 0 }
    | .db => { r with ph := .enlo, en := false, tmr := p.nEnLow - 1 }
    | .enlo => { r with ph := .enhi, en := true, tmr := p.nEnHigh - 1 }
    | .enhi => { r with ph := .settle, en := false, tmr := p.nSettle + tickGuard p r - 1 }
    | .settle =>
      if r.half = false ∧ tickSingle r = false then { r with half := true, ph := .db, db := r.val.extractLsb 3 0, tmr := 0 }
      else if r.inInit = true then
        if r.istep = 8 then { r with inInit := false, initDone := true, istep := 0, ph := .idle }
        else tickStartStep p (r.istep + 1) r
      else { r with ph := .idle }

end Sys2Proof.Machine
end

