-- ==== Sys2Proof/Safety.lean ====
section
/-! DEFINITION. The terms claims use: runs and what happens in them (accepted requests, line writes, resets), the invariants
of reachable states (10_state.md R29), and reachability. -/

namespace Sys2Proof.Machine

/-! ## Runs -/

/-- The state after `n` edges from `s` is `t`. -/
abbrev Runs (n : Nat) (s t : State) : Prop := Sys2Proof.core.run n s = .next t

/-- Reset is released at each of the next `n` edges. -/
def NoResetDuring (n : Nat) (s : State) : Prop := ∀ k t, k < n → Runs k s t → t.ports.rst = false

/-- The request accepted at the next edge, if one is (R61). -/
def State.accepts (s : State) : Option Instr :=
  if s.ports.rst = false ∧ s.regs.ph = .idle ∧ s.ports.reqValid = true then some (decode s.ports.reqWord) else none

/-- The requests accepted during the next `n` edges, in order. -/
def acceptedDuring : Nat → State → List Instr
  | 0, _ => []
  | n + 1, s =>
    s.accepts.toList ++
      match step s with
      | .next t => acceptedDuring n t
      | .fault _ => []
      | .refused _ => []

/-- The line writes of the next `n` edges, each with the number of its edge, the first edge being `k` (R71). -/
def writesDuring (k : Nat) : Nat → State → List (Nat × LineWrite)
  | 0, _ => []
  | n + 1, s =>
    (s.lineWrites.map fun w => (k, w)) ++
      match step s with
      | .next t => writesDuring (k + 1) n t
      | .fault _ => []
      | .refused _ => []

/-! ## Invariants -/

/-- The clauses of R29 that a state can violate in this model; (f) and the bound in (b) hold by type. -/
structure Regs.Reachable29 (r : Regs) : Prop where
  a : r.ph = .idle → r.tmr = 0 ∧ r.inInit = false ∧ r.istep = 0 ∧ r.en = false
  b : r.inInit = true → r.ph ≠ .idle ∧ r.istep.val ≤ 8
  c : r.en = true ↔ r.ph = .enhi
  d : (r.ph = .wait → r.inInit = true ∧ r.istep = 0) ∧ (r.inInit = true ∧ r.istep = 0 → r.ph = .wait)
  e : r.half = true → r.ph = .db ∨ r.ph = .enlo ∨ r.ph = .enhi ∨ r.ph = .settle ∨ r.ph = .idle
  f : r.ph.code ≠ 7 ∧ r.istep.val ≤ 8
  g : r.initDone = true → r.inInit = false

/-- The invariant every step keeps: R29, and what its proof needs: `istep` is 0 outside an INIT (R20), a byte's second nibble
is no single-nibble step's, and the timer is below the dwell of its phase (R17, R18). -/
structure Regs.Inv (p : Params) (r : Regs) : Prop where
  r29 : r.Reachable29
  outside : r.inInit = false → r.istep = 0
  pairs : r.half = true → r.single = false
  timer : r.ph ≠ .idle → r.tmr < r.dwell p

/-- What a transfer in progress carries: the data lines the nibble in progress (R33), the transfers of an INIT RS low and the
byte of the step's table row (R15, R60, R74). -/
structure Regs.Carries (p : Params) (r : Regs) : Prop where
  data : r.ph = .db ∨ r.ph = .enlo ∨ r.ph = .enhi ∨ r.ph = .settle →
    r.db = if r.half then loNibble r.val else hiNibble r.val
  select : r.inInit = true → r.ph ≠ .wait → r.rs = false
  table : r.inInit = true → r.istep ≠ 0 → stepByte p r.istep = some r.val

/-- The invariant of a state is that of its registers under its parameters. -/
abbrev State.Inv (s : State) : Prop := s.regs.Inv s.params

/-- A block with the given parameters right after reset, the given inputs to come (R28, R99). -/
def State.start (p : Params) (inputs : List Stimulus) : State := { State.reset with params := p, inputs := inputs }

/-- A state some run reaches from reset, whatever the parameters and the inputs. -/
def Reachable (s : State) : Prop := ∃ p inputs n, Runs n (State.start p inputs) s

end Sys2Proof.Machine
end

