-- ==== Sys2Proof/Certificates/Slice0/Obligations.lean ====
section
/-! DEFINITION. The statements for the provers. Each docstring names the rules of spec/ it rests on. -/

open Sys2Proof Sys2Proof.Machine

/-! ## Encoding -/

/-- Words written out from the encodings of R46 (95_test_vectors.md section 2) decode to their requests. -/
def Obligations.WrittenWordsDecode : Prop :=
  decode 0b0001001000 = .sendCmd 0x48 ∧ decode 0b0011111111 = .sendCmd 0xFF ∧
  decode 0b0100001010 = .sendChr 0x0A ∧ decode 0b0101001000 = .sendChr 0x48 ∧
  decode 0b1000000000 = .init ∧ decode 0b1001001000 = .init ∧ decode 0b1111111111 = .init

/-- Decoding the word of a request gives the request back, at every value of its operand (R45, R46). -/
def Obligations.DecodeEncodeRoundTrip : Prop :=
  ∀ i : Instr, decode (encode i) = i

/-- R46: every word selects exactly one row of the table, by `(w & mask) == match`, and decodes to that row's request with
bits 7:0 as its value. -/
def Obligations.EveryWordSelectsOneRow : Prop :=
  ∀ w : ReqWord,
    (opcodeTable.filter fun row => row.selects w).map OpcodeRow.mnemonic = [(decode w).mnemonic] ∧
    (w &&& 0x300 = 0x000 → decode w = .sendCmd (w.extractLsb' 0 8)) ∧
    (w &&& 0x300 = 0x100 → decode w = .sendChr (w.extractLsb' 0 8)) ∧
    (w &&& 0x200 = 0x200 → decode w = .init)

/-- R50: with bit 9 set the nine low bits are ignored, and the canonical spelling is 0x200; a SEND's word is its only one. -/
def Obligations.InitIgnoresLowBits : Prop :=
  (∀ low : BitVec 9, decode (1#1 ++ low) = .init) ∧ encode .init = 0x200 ∧
  ∀ w : ReqWord, encode (decode w) = if w.getLsbD 9 then 0x200 else w

/-- The printed text of a request reads back as that request, with no label (R55; the spacing and the digits chosen are the
model's, log 19). -/
def Obligations.PrintedRequestReadsBack : Prop :=
  ∀ i : Instr, parseLine (printRequest i) = .ok ⟨none, some i⟩

/-! ## One clock edge: which of the three things happens -/

/-- A step with reset released and a word offered is the execution of the decoded word, on the state whose input for this
edge is consumed (R61, R89). -/
def Obligations.StepExecutesOfferedRequest : Prop :=
  ∀ s : State, s.ports.rst = false → s.ports.reqValid = true →
    step s = exec (decode s.ports.reqWord) s.consumeInput ∧
    s.consumeInput = { s with inputs := s.consumeInput.inputs }

/-- The word placed by `withFetchWord` is executed by the very next step (the model's reading of a requester's offer, log 4). -/
def Obligations.PlacedWordExecutedNext : Prop :=
  ∀ (s : State) (nbits w : Nat), s.regs.ph = .idle →
    step (s.withFetchWord nbits w) = exec (decode (BitVec.ofNat 10 w)) s

/-- R85: no step and no request ends in a fault or a refusal. -/
def Obligations.EveryStepGivesANextState : Prop :=
  (∀ s : State, ∃ t, step s = .next t) ∧ ∀ (i : Instr) (s : State), ∃ t, exec i s = .next t

/-- R62: the registers after a step are `tick` of the parameters, the registers and the sampled ports, `tick` being R62 written
out in full, reset, acceptance, dwell and the end of every phase. -/
def Obligations.StepIsTick : Prop :=
  ∀ s : State, ∃ t, step s = .next t ∧
    t.regs = tick s.params s.regs s.ports.rst s.ports.reqValid s.ports.reqWord

/-- R99: at an edge with `rst = 1` every register takes its reset value, whatever else is happening; nothing is accepted; the
next edge with reset released accepts what is offered there. -/
def Obligations.ResetWinsOverEverything : Prop :=
  ∀ s : State, s.ports.rst = true →
    s.accepts = none ∧
    ∃ t, step s = .next t ∧
      t.regs = { rs := false, en := false, db := 0b0000, val := 0x00, half := false, ph := .idle, tmr := 0,
                 inInit := false, istep := 0, initDone := false } ∧
      t.regs.reqReady = true ∧
      (t.ports.rst = false → t.ports.reqValid = true → t.accepts = some (decode t.ports.reqWord))

/-- R100: the output ports after reset. -/
def Obligations.PortsAfterReset : Prop :=
  State.reset.regs.outputs =
    { reqReady := true, busy := false, initDone := false, lines := [false, false, false, false, false, false] } ∧
  ∀ s t : State, s.ports.rst = true → step s = .next t → t.regs.outputs = State.reset.regs.outputs

/-- R101(a): a reset that finds EN high adds one entry of unspecified value to `Latched`: the free value of log 9 at the count
reached, of which nothing is known, and the count moves on; any other reset adds none. Parameters stay (log 1). -/
def Obligations.ResetLatchesOnlyIfEnWasHigh : Prop :=
  ∀ s t : State, s.ports.rst = true → step s = .next t →
    t.params = s.params ∧
    (s.regs.en = true →
      t.latched = s.latched ++ [Config.freeLatchedPair s.freeCount] ∧ t.freeCount = s.freeCount + 1) ∧
    (s.regs.en = false → t.latched = s.latched ∧ t.freeCount = s.freeCount)

/-- R98: in `IDLE`, with reset released and nothing offered, everything but the consumed input holds. -/
def Obligations.IdleHoldsWithoutRequest : Prop :=
  ∀ s : State, s.ports.rst = false → s.ports.reqValid = false → s.regs.ph = .idle →
    step s = .next s.consumeInput

/-! ## Accepting a request -/

/-- SEND.CMD is accepted in `IDLE` (R61; the "SEND accepted" line of R62, R63): the byte and RS are loaded, the transfer
starts; every other register, the parameters, the inputs and `Latched` stay. -/
def Obligations.SendCmdAccepted : Prop :=
  ∀ (v : Byte) (s : State), s.regs.ph = .idle →
    exec (.sendCmd v) s =
      .next { s with regs := { s.regs with val := v, rs := false, half := false, ph := .rs, tmr := 0 } }

/-- SEND.CHR is accepted in `IDLE` (R61; the "SEND accepted" line of R62, R64). -/
def Obligations.SendChrAccepted : Prop :=
  ∀ (v : Byte) (s : State), s.regs.ph = .idle →
    exec (.sendChr v) s =
      .next { s with regs := { s.regs with val := v, rs := true, half := false, ph := .rs, tmr := 0 } }

/-- INIT is accepted in `IDLE` (R61; the "INIT accepted" line of R62, R73): the power-up wait starts; no line changes. -/
def Obligations.InitAccepted : Prop :=
  ∀ s : State, s.regs.ph = .idle →
    exec .init s =
      .next { s with regs := { s.regs with
        inInit := true, initDone := false, istep := 0, half := false, ph := .wait, tmr := s.params.nPowerup - 1 } }

/-- R61: while a request is in flight `req_valid` and `req_word` are ignored. With reset released, two busy states that differ
only in their inputs step alike, a request held at the port stays there, and which request is offered to `exec` makes no
difference. -/
def Obligations.OfferIgnoredWhileBusy : Prop :=
  ∀ s : State, s.regs.ph ≠ .idle → s.ports.rst = false →
    (∀ (inputs : List Stimulus) (t u : State), ({ s with inputs := inputs } : State).ports.rst = false →
      step s = .next t → step { s with inputs := inputs } = .next u → u = { t with inputs := u.inputs }) ∧
    (∀ (w : ReqWord) (rest : List Stimulus) (t : State), s.inputs = .offer w :: rest → step s = .next t →
      t.inputs = s.inputs) ∧
    (∀ i j : Instr, exec i s = exec j s) ∧ s.accepts = none

/-! ## The sequencer -/

/-- R18: in a phase, while the timer is not 0, it counts down and nothing else of the block changes; at 0 the phase ends; a
phase of dwell `N` is entered with `N - 1`; in `IDLE` the timer is 0; no port shows it. -/
def Obligations.DwellTimerCounts : Prop :=
  ∀ s t : State, s.Inv → s.ports.rst = false → step s = .next t →
    (s.regs.ph ≠ .idle → s.regs.tmr ≠ 0 →
      t = { s with regs := { s.regs with tmr := s.regs.tmr - 1 }, inputs := t.inputs }) ∧
    (s.regs.ph ≠ .idle → s.regs.tmr = 0 → t.regs.ph ≠ s.regs.ph) ∧
    (t.regs.ph ≠ s.regs.ph → t.regs.tmr = t.regs.dwell s.params - 1) ∧
    (t.regs.ph = .idle → t.regs.tmr = 0) ∧
    (∀ n : Nat, ({ t.regs with tmr := n } : Regs).outputs = t.regs.outputs)

/-- R67: the successor of each phase, with the two decision points at the end of `SETTLE`; a phase changes at no other time. -/
def Obligations.PhaseSuccessors : Prop :=
  ∀ s t : State, s.ports.rst = false → step s = .next t →
    (s.regs.ph = .idle → (∃ v, s.accepts = some (.sendCmd v) ∨ s.accepts = some (.sendChr v)) → t.regs.ph = .rs) ∧
    (s.regs.ph = .idle → s.accepts = some .init → t.regs.ph = .wait) ∧
    (s.regs.ph = .idle → s.accepts = none → t.regs.ph = .idle) ∧
    (s.regs.ph ≠ .idle → s.regs.tmr ≠ 0 → t.regs.ph = s.regs.ph) ∧
    (s.regs.tmr = 0 →
      (s.regs.ph = .wait → t.regs.ph = .rs ∧ t.regs.istep = 1) ∧
      (s.regs.ph = .rs → t.regs.ph = .db) ∧
      (s.regs.ph = .db → t.regs.ph = .enlo) ∧
      (s.regs.ph = .enlo → t.regs.ph = .enhi) ∧
      (s.regs.ph = .enhi → t.regs.ph = .settle) ∧
      (s.regs.ph = .settle →
        (s.regs.half = false → s.regs.single = false → t.regs.ph = .db) ∧
        (s.regs.half = true ∨ s.regs.single = true →
          (s.regs.inInit = true → s.regs.istep.val < 8 → t.regs.ph = .rs) ∧
          (s.regs.inInit = false ∨ s.regs.istep = 8 → t.regs.ph = .idle))))

/-- The steps of the initializer are taken in index order, none skipped, none repeated (R19, R74): a step that changes `istep`
either starts the next one with its table row (R62 `start_step`) or ends the last. -/
def Obligations.InitStepsInOrder : Prop :=
  ∀ s t : State, s.Inv → s.ports.rst = false → step s = .next t → t.regs.istep ≠ s.regs.istep →
    (s.regs.istep.val < 8 ∧ t.regs.istep.val = s.regs.istep.val + 1 ∧ stepByte s.params t.regs.istep = some t.regs.val ∧
      t.regs.rs = false ∧ t.regs.half = false ∧ t.regs.ph = .rs ∧ t.regs.inInit = true ∧
      t.regs.en = s.regs.en ∧ t.regs.db = s.regs.db) ∨
    (s.regs.istep = 8 ∧ t.regs.istep = 0 ∧ t.regs.ph = .idle ∧ t.regs.inInit = false ∧ t.regs.initDone = true ∧
      t.regs.lines = s.regs.lines)

/-- R25: what sets and what clears each one-bit flag, for every state and every step. -/
def Obligations.FlagsChangeOnlyAsListed : Prop :=
  ∀ s t : State, step s = .next t →
    let ends := s.regs.ph = .settle ∧ s.regs.tmr = 0
    let lastStepEnds := ends ∧ (s.regs.half = true ∨ s.regs.single = true) ∧ s.regs.inInit = true ∧ s.regs.istep = 8
    let stepStarts := (s.regs.ph = .wait ∧ s.regs.tmr = 0) ∨
      (ends ∧ (s.regs.half = true ∨ s.regs.single = true) ∧ s.regs.inInit = true ∧ s.regs.istep ≠ 8)
    (s.ports.rst = true → t.regs.half = false ∧ t.regs.inInit = false ∧ t.regs.initDone = false ∧ t.regs.busy = false) ∧
    (s.ports.rst = false →
      (t.regs.half = true ↔
        (ends ∧ s.regs.half = false ∧ s.regs.single = false) ∨
        (s.regs.half = true ∧ s.accepts = none ∧ ¬ stepStarts)) ∧
      (t.regs.inInit = true ↔ s.accepts = some .init ∨ (s.regs.inInit = true ∧ ¬ lastStepEnds)) ∧
      (t.regs.initDone = true ↔ lastStepEnds ∨ (s.regs.initDone = true ∧ s.accepts ≠ some .init)) ∧
      (t.regs.busy = true ↔
        s.accepts ≠ none ∨
        (s.regs.busy = true ∧ ¬ (ends ∧ (s.regs.half = true ∨ s.regs.single = true) ∧
          (s.regs.inInit = false ∨ s.regs.istep = 8)))))

/-! ## The lines -/

/-- R34: the bits of the nibble on the lines keep their weight order, `value[4..7]` or `value[0..3]` on DB4 to DB7. -/
def Obligations.NibbleBitsOnTheLines : Prop :=
  ∀ (r : Regs) (v : Byte),
    (r.db = hiNibble v →
      r.level .DB4 = v.getLsbD 4 ∧ r.level .DB5 = v.getLsbD 5 ∧ r.level .DB6 = v.getLsbD 6 ∧ r.level .DB7 = v.getLsbD 7) ∧
    (r.db = loNibble v →
      r.level .DB4 = v.getLsbD 0 ∧ r.level .DB5 = v.getLsbD 1 ∧ r.level .DB6 = v.getLsbD 2 ∧ r.level .DB7 = v.getLsbD 3)

/-- The lines change only by the writes the rules make at the edge (R14, R57, R62). -/
def Obligations.LinesChangeOnlyByTheWrites : Prop :=
  ∀ s t : State, step s = .next t → t.regs.lines = s.regs.lines.writes s.lineWrites

/-- Outside reset, at an edge that changes `en` neither `rs` nor `db` changes, and `Latched` grows exactly at the end of
`ENHI`, by the pair on the lines (R40, R70). -/
def Obligations.LatchedGrowsOnlyAtTheEndOfEnhi : Prop :=
  ∀ s t : State, s.Inv → s.ports.rst = false → step s = .next t →
    (t.regs.en ≠ s.regs.en → t.regs.rs = s.regs.rs ∧ t.regs.db = s.regs.db) ∧
    t.latched = s.latched ++ (if s.regs.ph = .enhi ∧ s.regs.tmr = 0 then [⟨s.regs.rs, s.regs.db⟩] else []) ∧
    t.freeCount = s.freeCount

/-- Outside reset the RS line changes only at the start of a transfer, in its `RS` cycle, with EN low before and after
(R59, R69(e)). -/
def Obligations.RsChangesOnlyWhenATransferStarts : Prop :=
  ∀ s t : State, s.Inv → s.ports.rst = false → step s = .next t → t.regs.rs ≠ s.regs.rs →
    t.regs.ph = .rs ∧ s.regs.ph ≠ .rs ∧ s.regs.en = false ∧ t.regs.en = false

/-! ## Invariants -/

/-- The invariants hold at reset, whatever the parameters and the inputs. -/
def Obligations.InvariantsHoldAtReset : Prop :=
  ∀ (p : Params) (inputs : List Stimulus),
    (State.start p inputs).Inv ∧ (State.start p inputs).regs.Carries p

/-- Every step keeps the invariant of R29 (with what makes it inductive), from every state that has it. -/
def Obligations.EveryStepKeepsTheInvariant : Prop :=
  ∀ s t : State, s.Inv → step s = .next t → t.Inv

/-- Every step keeps what a transfer carries: the lines hold the nibble in progress, high half first, and an INIT sends its
table with RS low (R15, R33, R60, R74). -/
def Obligations.EveryStepKeepsWhatATransferCarries : Prop :=
  ∀ s t : State, s.Inv → s.regs.Carries s.params → step s = .next t → t.regs.Carries t.params

/-- R29: the clauses (a) to (g) in every state reachable from reset, with any legal parameters and any inputs. -/
def Obligations.ReachableStatesSatisfyR29 : Prop :=
  ∀ s : State, Reachable s → s.regs.Reachable29

/-- The timer fits its `TMR_W` bits (R8, R66(c)). -/
def Obligations.TimerFitsItsWidth : Prop :=
  ∀ s : State, s.Inv → s.regs.tmr < 2 ^ s.params.tmrW

/-! ## What is not read -/

/-- No rule reads `Latched` or the count of free values, and no step writes the parameters (R24, R97; log 1, log 8). -/
def Obligations.GhostsAreNotRead : Prop :=
  ∀ (s t u : State) (latched : List Latch) (k : Nat),
    step s = .next t → step { s with latched := latched, freeCount := k } = .next u →
    t.params = s.params ∧ u = { t with latched := u.latched, freeCount := u.freeCount }

/-- `init_done` is read by no rule: a SEND is accepted and performed whatever its value (R21, R110). -/
def Obligations.InitDoneIsNotRead : Prop :=
  ∀ (s t u : State) (b : Bool),
    step s = .next t → step { s with regs := { s.regs with initDone := b } } = .next u →
    u = { t with regs := { t.regs with initDone := u.regs.initDone } }

/-- The block moves `value` and never inspects it (R9): what is in `val`, `db` and `rs` changes nothing of the sequencer's
course, the enable line, or the inputs taken. -/
def Obligations.DataAreNotInspected : Prop :=
  ∀ (s t u : State) (v : Byte) (n : Nibble) (b : Bool),
    step s = .next t → step { s with regs := { s.regs with val := v, db := n, rs := b } } = .next u →
    u = { t with regs := { t.regs with val := u.regs.val, db := u.regs.db, rs := u.regs.rs }, latched := u.latched } ∧
    u.latched.length = t.latched.length

/-- `T_TICK` is read by no rule (R118): two blocks whose parameters differ in it alone step alike. -/
def Obligations.TickPeriodIsNotRead : Prop :=
  ∀ (s t u : State) (p : Params),
    p.toRawParams = { s.params.toRawParams with tTick := p.tTick } →
    step s = .next t → step { s with params := p } = .next u → u = { t with params := p }

/-! ## Whole requests -/

/-- R65: the waveform of a SEND, in every relative cycle up to the first one back in `IDLE`. -/
def Obligations.SendWaveform : Prop :=
  ∀ (m : DataMode) (v : Byte) (s : State), s.Inv → s.regs.ph = .idle →
    ∃ a, exec (sendCall v m) s = .next a ∧
      ∀ k, k ≤ sendCycles s.params → NoResetDuring k a →
        ∃ t, Runs k a t ∧ t.regs = sendWave s.params m v s.regs k

/-- SEND.CMD and SEND.CHR complete (R63, R64, R72): accepted in `IDLE` and not cut by a reset, a SEND is busy for
`1 + 2 Pn` cycles and then back in `IDLE`, with the registers the rules give, `Latched` grown by the two nibbles of the value
under its RS level, high nibble first, and everything else as before. -/
def Obligations.SendCompletes : Prop :=
  ∀ (m : DataMode) (v : Byte) (s : State), s.Inv → s.regs.ph = .idle →
    ∃ a, exec (sendCall v m) s = .next a ∧
      (NoResetDuring (sendCycles s.params) a →
        (∀ k t, k < sendCycles s.params → Runs k a t → t.regs.busy = true) ∧
        ∃ t, Runs (sendCycles s.params) a t ∧
          t.regs = { s.regs with rs := m.level, val := v, db := loNibble v, en := false, half := true, ph := .idle,
                                 tmr := 0 } ∧
          t.latched = s.latched ++ [⟨m.level, hiNibble v⟩, ⟨m.level, loNibble v⟩] ∧
          t.params = s.params ∧ t.freeCount = s.freeCount)

/-- R76: the course of INIT: step `k` starts at its relative cycle and runs as its table row says; then `IDLE`. -/
def Obligations.InitWaveform : Prop :=
  ∀ s : State, s.Inv → s.regs.ph = .idle →
    ∃ a, exec .init s = .next a ∧
      (∀ (k : Fin 9) (i : Nat), i < stepLength s.params k → NoResetDuring (stepStart s.params k + i) a →
        ∃ t, Runs (stepStart s.params k + i) a t ∧ t.regs = initWave s.params s.regs k i) ∧
      (NoResetDuring (stepStart s.params 9) a → ∃ t, Runs (stepStart s.params 9) a t ∧ t.regs.ph = .idle) ∧
      stepStart s.params 9 = initCycles s.params

/-- INIT completes (R73, R81, R83, R84): accepted in `IDLE` and not cut by a reset, it is busy for its length and then back in
`IDLE` with `init_done` set, the last byte's low nibble on the lines, and twelve entries added to `Latched`. -/
def Obligations.InitCompletes : Prop :=
  ∀ s : State, s.Inv → s.regs.ph = .idle →
    ∃ a, exec .init s = .next a ∧
      (NoResetDuring (initCycles s.params) a →
        (∀ k t, k < initCycles s.params → Runs k a t →
          t.regs.busy = true ∧ t.regs.inInit = true ∧ t.regs.initDone = false) ∧
        ∃ t, Runs (initCycles s.params) a t ∧
          t.regs = { rs := false, en := false, db := loNibble s.params.cClear, val := s.params.cClear, half := true,
                     ph := .idle, tmr := 0, inInit := false, istep := 0, initDone := true } ∧
          t.latched = s.latched ++ contribution s.params .init ∧
          t.params = s.params ∧ t.freeCount = s.freeCount)

/-- A request in flight ends (R43): from every state with the invariant, if no reset comes, `IDLE` is reached within the
length of an INIT. -/
def Obligations.EveryRequestEnds : Prop :=
  ∀ s : State, s.Inv → NoResetDuring (initCycles s.params) s →
    ∃ n t, n ≤ initCycles s.params ∧ Runs n s t ∧ t.regs.ph = .idle

/-- Back-to-back requests (R117): after a SEND accepted from `s`, nothing is accepted at the next `2 Pn + 1` edges, and what
is offered at edge `2 Pn + 2` is accepted there. -/
def Obligations.BackToBackSends : Prop :=
  ∀ (m : DataMode) (v : Byte) (s : State), s.Inv → s.accepts = some (sendCall v m) →
    NoResetDuring (2 * nibblePeriod s.params + 3) s →
    (∀ k t, 0 < k → k < 2 * nibblePeriod s.params + 2 → Runs k s t → t.accepts = none) ∧
    ∃ t, Runs (2 * nibblePeriod s.params + 2) s t ∧
      t.accepts = if t.ports.reqValid then some (decode t.ports.reqWord) else none

/-- R96 (the source's concurrency property): over a run without reset between two idle states, `Latched` gains the
concatenation, in the order of acceptance, of the accepted requests' contributions: nibbles of different requests never mix,
none is lost, repeated or reordered. -/
def Obligations.LatchedIsWholeContributionsInOrder : Prop :=
  ∀ (n : Nat) (s t : State), s.Inv → s.regs.ph = .idle → NoResetDuring n s → Runs n s t → t.regs.ph = .idle →
    t.latched = s.latched ++ (acceptedDuring n s).flatMap (contribution s.params)

/-- Requesters that offer their programs greedily, merged in any order that keeps each one's own (R41, R95, R96): all requests
are performed, in the merged order, each requester's program a subsequence of what is accepted. -/
def Obligations.MergedProgramsArePerformed : Prop :=
  ∀ (programs : List (List Instr)) (merged : List Instr) (s : State), IsMerge programs merged → s.Inv →
    s.regs.ph = .idle →
    let n := (merged.map fun i => requestCycles s.params i + 1).sum
    let s0 := s.offering merged
    acceptedDuring n s0 = merged ∧ (∀ program ∈ programs, program.Sublist (acceptedDuring n s0)) ∧
    ∃ t, Runs n s0 t ∧ t.regs.ph = .idle ∧ t.inputs = [] ∧
      t.latched = s.latched ++ merged.flatMap (contribution s.params)

/-! ## The two levels -/

/-- R71: for a request accepted at edge 0 and not cut by a reset, the line writes Level T makes until the return to `IDLE` are
exactly the `Set` events of its Level E list, in order, at the times R71 gives; so they meet every hold. -/
def Obligations.TicksRefineEvents : Prop :=
  ∀ (i : Instr) (s : State), s.Inv → s.accepts = some i →
    let n := requestCycles s.params i
    let events := requestEvents s.params i
    NoResetDuring (n + 1) s →
    writesDuring 0 (n + 1) s = (schedule 0 0 true events).1 ∧
    (schedule 0 0 true events).2 = n ∧
    (∀ k t, 0 < k → k ≤ n → Runs k s t → t.regs.ph ≠ .idle) ∧
    (∃ t, Runs (n + 1) s t ∧ t.regs.ph = .idle) ∧
    conforms 0 0 n events (writesDuring 0 (n + 1) s) = true

/-- R70 at Level E: from lines with EN low, the event list of a request latches its contribution. -/
def Obligations.EventsLatchTheContribution : Prop :=
  ∀ (p : Params) (i : Instr) (l : Lines), l.en = false → latchedOf l (requestEvents p i) = contribution p i

/-- Every conforming timed behaviour of an event list, however much slower (R7), latches the same pairs (R10, R70). -/
def Obligations.SlowerBehavioursLatchTheSame : Prop :=
  ∀ (events : List Event) (l : Lines) (t h tEnd : Nat) (ws : List (Nat × LineWrite)),
    conforms t h tEnd events ws = true → latchedOf l (ws.map fun w => .set w.2) = latchedOf l events

/-- R58: in every conforming behaviour of `NIBBLE(n)` the data lines are driven first, then EN goes low, high and low, with at
least the three holds. -/
def Obligations.NibbleHoldsAreLowerBounds : Prop :=
  ∀ (p : Params) (n : Nibble) (tEnd : Nat) (ws : List (Nat × LineWrite)),
    conforms 0 0 tEnd (nibbleEvents p n) ws = true →
    ∃ t0 t1 t2 t3, ws = [(t0, .setDB n), (t1, .setEN false), (t2, .setEN true), (t3, .setEN false)] ∧
      t0 ≤ t1 ∧ t1 + p.nEnLow ≤ t2 ∧ t2 + p.nEnHigh ≤ t3 ∧ t3 + p.nSettle ≤ tEnd

/-! ## Parameters -/

/-- R107: a delay is rounded up to whole ticks, never below one tick; at a tick of 1 µs or more the two 1 µs holds are one
tick each; below 1 µs the default counts are too small. -/
def Obligations.TicksCoverTheDuration : Prop :=
  (∀ t tTick : Nat, 0 < tTick →
    t ≤ ticksFor t tTick * tTick ∧ 1 ≤ ticksFor t tTick ∧ ∀ n, 1 ≤ n → t ≤ n * tTick → ticksFor t tTick ≤ n) ∧
  (∀ tTick : Nat, 1000 ≤ tTick → ticksFor 1000 tTick = 1) ∧
  ∀ tTick : Nat, 0 < tTick → tTick < 1000 → 1 < ticksFor 1000 tTick ∧ 100 < ticksFor 100000 tTick

/-- The defaults of R6 are the source minima at a tick of 1000 ns (R5; the four command bytes are general knowledge, log 2). -/
def Obligations.DefaultsAreTheSourceMinima : Prop :=
  RawParams.forTick 1000 16 = RawParams.default ∧ Params.default.toRawParams = RawParams.default

/-- A parameter table is refused exactly when a number of it is outside its range (R6, R8). -/
def Obligations.ParametersOutsideTheirRangeAreRefused : Prop :=
  ∀ p : RawParams,
    Params.ofRaw p = none ↔
      p.tTick = 0 ∨ p.nEnLow = 0 ∨ p.nEnHigh = 0 ∨ p.nSettle = 0 ∨ p.nPowerup = 0 ∨
      2 ^ p.tmrW ≤ p.nEnLow ∨ 2 ^ p.tmrW ≤ p.nEnHigh ∨ 2 ^ p.tmrW ≤ p.nPowerup ∨
      2 ^ p.tmrW ≤ p.nSettle + max p.nGuard1 (max p.nGuard2 p.nGuard3)
end

