-- ==== Sys2Proof/Laws/Decode.lean ====
section
/-! SUPPORT. The fields of a word put together from its parts, and the three cases of decoding. -/

namespace Sys2Proof

theorem decode_of_init (w : ReqWord) (h : reqInit w = true) : decode w = .init := by simp [decode, h]

theorem decode_of_send (w : ReqWord) (h : reqInit w = false) :
    decode w = sendCall (reqValue w) (if reqMode w then .char else .command) := by
  cases hm : reqMode w <;> simp [decode, h, hm, sendCall]

@[simp] theorem sendCall_command (v : Byte) : sendCall v .command = .sendCmd v := rfl
@[simp] theorem sendCall_char (v : Byte) : sendCall v .char = .sendChr v := rfl

/-- Every request is well formed (R49, R51). -/
@[simp] theorem Instr.wf_true (i : Instr) : i.wf = true := by cases i <;> rfl

@[simp] theorem portWord_toNat (w : ReqWord) : portWord w.toNat = w := by simp [portWord]

/-! ## The ranges of the parameters (R6) -/

theorem Params.nEnLow_pos (p : Params) : 1 ≤ p.nEnLow := p.legal.2.1
theorem Params.nEnHigh_pos (p : Params) : 1 ≤ p.nEnHigh := p.legal.2.2.1
theorem Params.nSettle_pos (p : Params) : 1 ≤ p.nSettle := p.legal.2.2.2.1
theorem Params.nPowerup_pos (p : Params) : 1 ≤ p.nPowerup := p.legal.2.2.2.2.1
theorem Params.dwell_fits (p : Params) (n : Nat) (h : n ∈ p.dwells) : n < 2 ^ p.tmrW := p.legal.2.2.2.2.2 n h

end Sys2Proof
end

