-- ==== Sys2Proof/Laws/Events.lean ====
section
/-! SUPPORT. Holds in event lists: `holdFor` is skipped by `latchedOf` and adds its ticks in `schedule` and `conforms`. -/

namespace Sys2Proof.Machine

@[simp] theorem holdFor_zero : holdFor 0 = [] := rfl

theorem holdFor_pos (n : Nat) (h : 1 ≤ n) : holdFor n = [.hold n] := by
  cases n with
  | zero => cases h
  | succ n => rfl

@[simp] theorem Lines.writes_nil (l : Lines) : l.writes [] = l := rfl
@[simp] theorem Lines.writes_cons (l : Lines) (w : LineWrite) (ws : List LineWrite) :
    l.writes (w :: ws) = (l.write w).writes ws := rfl

@[simp] theorem latchedOf_holdFor (l : Lines) (n : Nat) (es : List Event) :
    latchedOf l (holdFor n ++ es) = latchedOf l es := by
  cases n <;> rfl

@[simp] theorem schedule_holdFor (t h n : Nat) (first : Bool) (es : List Event) :
    schedule t h first (holdFor n ++ es) = schedule t (h + n) first es := by
  cases n <;> rfl

@[simp] theorem conforms_holdFor (t h tEnd n : Nat) (es : List Event) (ws : List (Nat × LineWrite)) :
    conforms t h tEnd (holdFor n ++ es) ws = conforms t (h + n) tEnd es ws := by
  cases n with
  | zero => rfl
  | succ n => simp [holdFor, conforms]

end Sys2Proof.Machine
end

