-- ==== Sys2Proof/Laws/State.lean ====
section
/-! SUPPORT. One lemma per field and update of the state and of the registers, true by `rfl`, so that no proof unfolds a record
update; and when an edge changes a field of the machine around the registers. -/

namespace Sys2Proof.Machine

/-! ## `State.commit` -/

@[simp] theorem State.commit_params (s : State) (r : Regs) : (s.commit r).params = s.params := rfl
@[simp] theorem State.commit_regs (s : State) (r : Regs) : (s.commit r).regs = r := rfl
@[simp] theorem State.commit_inputs (s : State) (r : Regs) : (s.commit r).inputs = s.inputs := rfl
@[simp] theorem State.commit_freeCount (s : State) (r : Regs) : (s.commit r).freeCount = s.freeCount := rfl
theorem State.commit_latched (s : State) (r : Regs) : (s.commit r).latched =
    if s.regs.en = true ∧ r.en = false then s.latched ++ [⟨r.rs, r.db⟩] else s.latched := rfl

/-- An edge that does not make EN fall adds nothing to `Latched`. -/
theorem State.commit_of_not_fall (s : State) (r : Regs) (h : s.regs.en = true → r.en = true) :
    s.commit r = { s with regs := r } := by
  have h' : ¬ (s.regs.en = true ∧ r.en = false) := by
    rintro ⟨h1, h2⟩
    rw [h h1] at h2
    cases h2
  simp [State.commit, h']

/-- Committing the registers that are there changes nothing. -/
@[simp] theorem State.commit_self (s : State) : s.commit s.regs = s := State.commit_of_not_fall s s.regs id

/-! ## `State.resetEdge` -/

@[simp] theorem State.resetEdge_params (s : State) : s.resetEdge.params = s.params := rfl
@[simp] theorem State.resetEdge_regs (s : State) : s.resetEdge.regs = Regs.reset := rfl
@[simp] theorem State.resetEdge_inputs (s : State) : s.resetEdge.inputs = s.inputs := rfl
theorem State.resetEdge_latched (s : State) : s.resetEdge.latched =
    if s.regs.en then s.latched ++ [Config.freeLatchedPair s.freeCount] else s.latched := rfl
theorem State.resetEdge_freeCount (s : State) : s.resetEdge.freeCount =
    if s.regs.en then s.freeCount + 1 else s.freeCount := rfl

/-! ## `State.consumeInput` and the ports -/

@[simp] theorem State.consumeInput_params (s : State) : s.consumeInput.params = s.params := rfl
@[simp] theorem State.consumeInput_regs (s : State) : s.consumeInput.regs = s.regs := rfl
@[simp] theorem State.consumeInput_latched (s : State) : s.consumeInput.latched = s.latched := rfl
@[simp] theorem State.consumeInput_freeCount (s : State) : s.consumeInput.freeCount = s.freeCount := rfl

theorem State.consumeInput_nil (s : State) (h : s.inputs = []) : s.consumeInput = s := by
  cases s; simp_all [State.consumeInput]

theorem State.consumeInput_edge (s : State) (p : Ports) (rest : List Stimulus) (h : s.inputs = .edge p :: rest) :
    s.consumeInput = { s with inputs := rest } := by
  cases s; simp_all [State.consumeInput]

theorem State.consumeInput_offer_idle (s : State) (w : ReqWord) (rest : List Stimulus) (h : s.inputs = .offer w :: rest)
    (hp : s.regs.ph = .idle) : s.consumeInput = { s with inputs := rest } := by
  cases s; simp_all [State.consumeInput]

theorem State.consumeInput_offer_busy (s : State) (w : ReqWord) (rest : List Stimulus) (h : s.inputs = .offer w :: rest)
    (hp : s.regs.ph ≠ .idle) : s.consumeInput = s := by
  cases s; simp_all [State.consumeInput]

theorem State.ports_nil (s : State) (h : s.inputs = []) : s.ports = .quiet := by simp [State.ports, h]
theorem State.ports_edge (s : State) (p : Ports) (rest : List Stimulus) (h : s.inputs = .edge p :: rest) :
    s.ports = p := by simp [State.ports, h]
theorem State.ports_offer (s : State) (w : ReqWord) (rest : List Stimulus) (h : s.inputs = .offer w :: rest) :
    s.ports = ⟨false, true, w⟩ := by simp [State.ports, h]

/-! ## Accepting a request -/

section
variable (m : DataMode) (v : Byte) (p : Params) (k : Fin 9) (r : Regs)

@[simp] theorem Regs.acceptSend_rs : (r.acceptSend m v).rs = m.level := rfl
@[simp] theorem Regs.acceptSend_en : (r.acceptSend m v).en = r.en := rfl
@[simp] theorem Regs.acceptSend_db : (r.acceptSend m v).db = r.db := rfl
@[simp] theorem Regs.acceptSend_val : (r.acceptSend m v).val = v := rfl
@[simp] theorem Regs.acceptSend_half : (r.acceptSend m v).half = false := rfl
@[simp] theorem Regs.acceptSend_ph : (r.acceptSend m v).ph = .rs := rfl
@[simp] theorem Regs.acceptSend_tmr : (r.acceptSend m v).tmr = 0 := rfl
@[simp] theorem Regs.acceptSend_inInit : (r.acceptSend m v).inInit = r.inInit := rfl
@[simp] theorem Regs.acceptSend_istep : (r.acceptSend m v).istep = r.istep := rfl
@[simp] theorem Regs.acceptSend_initDone : (r.acceptSend m v).initDone = r.initDone := rfl

@[simp] theorem Regs.acceptInit_rs : (r.acceptInit p).rs = r.rs := rfl
@[simp] theorem Regs.acceptInit_en : (r.acceptInit p).en = r.en := rfl
@[simp] theorem Regs.acceptInit_db : (r.acceptInit p).db = r.db := rfl
@[simp] theorem Regs.acceptInit_val : (r.acceptInit p).val = r.val := rfl
@[simp] theorem Regs.acceptInit_half : (r.acceptInit p).half = false := rfl
@[simp] theorem Regs.acceptInit_ph : (r.acceptInit p).ph = .wait := rfl
@[simp] theorem Regs.acceptInit_tmr : (r.acceptInit p).tmr = p.nPowerup - 1 := rfl
@[simp] theorem Regs.acceptInit_inInit : (r.acceptInit p).inInit = true := rfl
@[simp] theorem Regs.acceptInit_istep : (r.acceptInit p).istep = 0 := rfl
@[simp] theorem Regs.acceptInit_initDone : (r.acceptInit p).initDone = false := rfl

@[simp] theorem Regs.startStep_rs : (r.startStep p k).rs = false := rfl
@[simp] theorem Regs.startStep_en : (r.startStep p k).en = r.en := rfl
@[simp] theorem Regs.startStep_db : (r.startStep p k).db = r.db := rfl
@[simp] theorem Regs.startStep_half : (r.startStep p k).half = false := rfl
@[simp] theorem Regs.startStep_ph : (r.startStep p k).ph = .rs := rfl
@[simp] theorem Regs.startStep_tmr : (r.startStep p k).tmr = 0 := rfl
@[simp] theorem Regs.startStep_inInit : (r.startStep p k).inInit = r.inInit := rfl
@[simp] theorem Regs.startStep_istep : (r.startStep p k).istep = k := rfl
@[simp] theorem Regs.startStep_initDone : (r.startStep p k).initDone = r.initDone := rfl

end

end Sys2Proof.Machine
end

