-- ==== Sys2Proof/Laws/Ops.lean ====
section
/-! SUPPORT. What each shared operation does, said once: the cases of an edge without acceptance, and of a step. -/

namespace Sys2Proof.Machine

/-! ## The edge without acceptance -/

theorem Regs.advance_idle (p : Params) (r : Regs) (h : r.ph = .idle) : r.advance p = r := by simp [Regs.advance, h]

theorem Regs.advance_dwell (p : Params) (r : Regs) (h : r.ph ≠ .idle) (ht : r.tmr ≠ 0) :
    r.advance p = { r with tmr := r.tmr - 1 } := by simp [Regs.advance, h, ht]

theorem Regs.advance_end (p : Params) (r : Regs) (h : r.ph ≠ .idle) (ht : r.tmr = 0) :
    r.advance p = r.phaseEnd p := by simp [Regs.advance, h, ht]

theorem Regs.phaseEnd_wait (p : Params) (r : Regs) (h : r.ph = .wait) : r.phaseEnd p = r.startStep p 1 := by
  simp [Regs.phaseEnd, h]

theorem Regs.phaseEnd_rs (p : Params) (r : Regs) (h : r.ph = .rs) :
    r.phaseEnd p = { r with ph := .db, db := hiNibble r.val, tmr := 0 } := by simp [Regs.phaseEnd, h]

theorem Regs.phaseEnd_db (p : Params) (r : Regs) (h : r.ph = .db) :
    r.phaseEnd p = { r with ph := .enlo, en := false, tmr := p.nEnLow - 1 } := by simp [Regs.phaseEnd, h]

theorem Regs.phaseEnd_enlo (p : Params) (r : Regs) (h : r.ph = .enlo) :
    r.phaseEnd p = { r with ph := .enhi, en := true, tmr := p.nEnHigh - 1 } := by simp [Regs.phaseEnd, h]

theorem Regs.phaseEnd_enhi (p : Params) (r : Regs) (h : r.ph = .enhi) :
    r.phaseEnd p = { r with ph := .settle, en := false, tmr := p.nSettle + r.guard p - 1 } := by simp [Regs.phaseEnd, h]

theorem Regs.phaseEnd_settle (p : Params) (r : Regs) (h : r.ph = .settle) : r.phaseEnd p = r.settleEnd p := by
  simp [Regs.phaseEnd, h]

/-- A single-nibble transfer is part of an INIT. -/
theorem Regs.inInit_of_single (r : Regs) (h : r.single = true) : r.inInit = true := by
  simp only [Regs.single, Bool.and_eq_true] at h
  exact h.1

/-- Everything the end of `SETTLE` can do. -/
theorem Regs.settleEnd_cases (p : Params) (r : Regs) :
    (r.half = false ∧ r.single = false ∧
      r.settleEnd p = { r with half := true, ph := .db, db := loNibble r.val, tmr := 0 }) ∨
    ((r.half = true ∨ r.single = true) ∧ r.inInit = true ∧ r.istep = 8 ∧
      r.settleEnd p = { r with inInit := false, initDone := true, istep := 0, ph := .idle }) ∨
    ((r.half = true ∨ r.single = true) ∧ r.inInit = true ∧ r.istep ≠ 8 ∧
      r.settleEnd p = r.startStep p (r.istep + 1)) ∨
    (r.half = true ∧ r.inInit = false ∧ r.settleEnd p = { r with ph := .idle }) := by
  have hsi := r.inInit_of_single
  by_cases h : r.half = false ∧ r.single = false
  · exact .inl ⟨h.1, h.2, by simp [Regs.settleEnd, h.1, h.2]⟩
  · have h' : r.half = true ∨ r.single = true := by
      cases hh : r.half <;> cases hs : r.single <;> simp_all
    by_cases hi : r.inInit = true
    · by_cases h8 : r.istep = 8
      · exact .inr (.inl ⟨h', hi, h8, by rw [Regs.settleEnd, if_neg h, if_pos hi, if_pos h8]⟩)
      · exact .inr (.inr (.inl ⟨h', hi, h8, by rw [Regs.settleEnd, if_neg h, if_pos hi, if_neg h8]⟩))
    · have hh : r.half = true := h'.resolve_right fun hs => hi (hsi hs)
      exact .inr (.inr (.inr ⟨hh, by simpa using hi, by rw [Regs.settleEnd, if_neg h, if_neg hi]⟩))

/-! ## The step as one total function -/

/-- The registers after an accepted request (R62). -/
def Regs.accept (p : Params) (r : Regs) : Instr → Regs
  | .sendCmd v => r.acceptSend .command v
  | .sendChr v => r.acceptSend .char v
  | .init => r.acceptInit p

/-- A request executed: accepted in `IDLE`, otherwise waiting. -/
theorem exec_eq (i : Instr) (s : State) : exec i s = .next (s.offered (s.regs.accept s.params i)) := by
  cases i <;> rfl

theorem exec_idle (i : Instr) (s : State) (h : s.regs.ph = .idle) :
    exec i s = .next { s with regs := s.regs.accept s.params i } := by
  rw [exec_eq, State.offered, if_pos h, State.commit_of_not_fall]
  cases i <;> exact id

theorem exec_busy (i : Instr) (s : State) (h : s.regs.ph ≠ .idle) : exec i s = .next s.unoffered := by
  rw [exec_eq, State.offered, if_neg h]
  rfl

/-- The state after one edge: what every step answers. -/
def State.after (s : State) : State :=
  if s.ports.rst then s.consumeInput.resetEdge
  else if s.regs.ph = .idle ∧ s.ports.reqValid = true then
    { s.consumeInput with regs := s.regs.accept s.params (decode s.ports.reqWord) }
  else s.consumeInput.commit (s.regs.advance s.params)

theorem step_eq_after (s : State) : step s = .next s.after := by
  unfold step State.after
  by_cases hr : s.ports.rst = true
  · simp [hr]
  · by_cases hv : s.ports.reqValid = true
    · by_cases hp : s.regs.ph = .idle
      · simp only [hr, hv, hp, and_self, if_true, if_false, Bool.false_eq_true]
        exact exec_idle _ _ hp
      · simp only [hr, hv, hp, false_and, if_true, if_false, Bool.false_eq_true]
        exact exec_busy _ _ hp
    · simp only [hr, hv, and_false, if_false, Bool.false_eq_true]
      rfl

theorem step_next_iff (s t : State) : step s = .next t ↔ t = s.after := by
  rw [step_eq_after]
  constructor
  · intro h; injection h with h; exact h.symm
  · rintro rfl; rfl

theorem State.after_reset (s : State) (h : s.ports.rst = true) : s.after = s.consumeInput.resetEdge := by
  simp [State.after, h]

theorem State.after_accept (s : State) (h : s.ports.rst = false) (hp : s.regs.ph = .idle)
    (hv : s.ports.reqValid = true) :
    s.after = { s.consumeInput with regs := s.regs.accept s.params (decode s.ports.reqWord) } := by
  simp [State.after, h, hp, hv]

theorem State.after_quiet (s : State) (h : s.ports.rst = false) (hp : s.regs.ph = .idle)
    (hv : s.ports.reqValid = false) : s.after = s.consumeInput := by
  simp only [State.after, h, hp, hv, Regs.advance_idle, Bool.false_eq_true, if_false, and_false]
  exact State.commit_self s.consumeInput

theorem State.after_busy (s : State) (h : s.ports.rst = false) (hp : s.regs.ph ≠ .idle) :
    s.after = s.consumeInput.commit (s.regs.advance s.params) := by
  simp [State.after, h, hp]

/-- An idle block is left as it is by the placing of a word. -/
theorem State.atIdle_of_idle (s : State) (h : s.regs.ph = .idle) : s.atIdle = s := by simp [State.atIdle, h]

/-- Everything an edge without reset can do: hold in `IDLE`, accept, count down, or end a phase. -/
theorem State.after_cases (s : State) (h : s.ports.rst = false) :
    (s.regs.ph = .idle ∧ s.ports.reqValid = false ∧ s.after = s.consumeInput) ∨
    (s.regs.ph = .idle ∧ s.ports.reqValid = true ∧
      s.after = { s.consumeInput with regs := s.regs.accept s.params (decode s.ports.reqWord) }) ∨
    (s.regs.ph ≠ .idle ∧ s.regs.tmr ≠ 0 ∧
      s.after = { s.consumeInput with regs := { s.regs with tmr := s.regs.tmr - 1 } }) ∨
    (s.regs.ph ≠ .idle ∧ s.regs.tmr = 0 ∧ s.after = s.consumeInput.commit (s.regs.phaseEnd s.params)) := by
  by_cases hp : s.regs.ph = .idle
  · cases hv : s.ports.reqValid
    · exact .inl ⟨hp, rfl, State.after_quiet s h hp hv⟩
    · exact .inr (.inl ⟨hp, rfl, State.after_accept s h hp hv⟩)
  · by_cases ht : s.regs.tmr = 0
    · exact .inr (.inr (.inr ⟨hp, ht, by rw [State.after_busy s h hp, Regs.advance_end _ _ hp ht]⟩))
    · refine .inr (.inr (.inl ⟨hp, ht, ?_⟩))
      rw [State.after_busy s h hp, Regs.advance_dwell _ _ hp ht]
      exact State.commit_of_not_fall s.consumeInput _ id

@[simp] theorem State.after_params (s : State) : s.after.params = s.params := by
  unfold State.after
  split
  · rfl
  · split <;> rfl

end Sys2Proof.Machine
end

