-- ==== Sys2Proof/Laws/PerInstr.lean ====
section
/-! SUPPORT. The per-instruction family `TableRow`: the canonical word of a request selects, in the opcode table of R46, the
row of its own mnemonic and no other. -/

namespace Sys2Proof.Laws.TableRow

/-- The word `encode i` selects exactly the row of `i`'s mnemonic. -/
def Statement (i : Sys2Proof.Instr) : Prop :=
  (Sys2Proof.opcodeTable.filter fun row => row.selects (Sys2Proof.encode i)).map Sys2Proof.OpcodeRow.mnemonic = [i.mnemonic]

theorem sendCmd (value : Sys2Proof.Byte) : Statement (.sendCmd value) := by
  revert value; unfold Statement; decide

theorem sendChr (value : Sys2Proof.Byte) : Statement (.sendChr value) := by
  revert value; unfold Statement; decide

theorem init : Statement .init := by
  unfold Statement; decide

end Sys2Proof.Laws.TableRow
end

