-- ==== Sys2Proof/Laws/Run.lean ====
section
/-! SUPPORT. Runs: a run is an iteration of `State.after`, runs join, and a busy block without reset goes its own way whatever
its inputs. -/

namespace Sys2Proof.Machine

theorem runs_zero (s t : State) : Runs 0 s t ↔ t = s := by
  constructor
  · intro h; injection h with h; exact h.symm
  · rintro rfl; rfl

theorem runs_succ (n : Nat) (s t : State) : Runs (n + 1) s t ↔ Runs n s.after t := by
  have h : Sys2Proof.core.step s = .next s.after := step_eq_after s
  simp only [Runs, Host.Core.run, h]

/-- A run of `n` edges is `n` times `State.after`. -/
theorem runs_iff (n : Nat) (s t : State) : Runs n s t ↔ t = State.after^[n] s := by
  induction n generalizing s with
  | zero => exact runs_zero s t
  | succ n ih => rw [runs_succ, ih]; rfl

theorem runs_add (m n : Nat) (s t u : State) (h : Runs m s t) : Runs (m + n) s u ↔ Runs n t u := by
  rw [runs_iff] at h
  rw [runs_iff, runs_iff, h, Nat.add_comm, Function.iterate_add_apply]

theorem noResetDuring_iff (n : Nat) (s : State) :
    NoResetDuring n s ↔ ∀ k, k < n → (State.after^[k] s).ports.rst = false := by
  simp only [NoResetDuring, runs_iff]
  exact ⟨fun h k hk => h k _ hk rfl, fun h k t hk ht => ht ▸ h k hk⟩

theorem noResetDuring_succ (n : Nat) (s : State) :
    NoResetDuring (n + 1) s ↔ s.ports.rst = false ∧ NoResetDuring n s.after := by
  rw [noResetDuring_iff, noResetDuring_iff]
  constructor
  · exact fun h => ⟨h 0 (Nat.succ_pos n), fun k hk => h (k + 1) (Nat.succ_lt_succ hk)⟩
  · rintro ⟨h0, h⟩ k hk
    cases k with
    | zero => exact h0
    | succ k => exact h k (Nat.lt_of_succ_lt_succ hk)

theorem NoResetDuring.mono {m n : Nat} {s : State} (h : NoResetDuring n s) (hm : m ≤ n) : NoResetDuring m s :=
  fun k t hk ht => h k t (Nat.lt_of_lt_of_le hk hm) ht

@[simp] theorem iterate_after_params (n : Nat) (s : State) : (State.after^[n] s).params = s.params := by
  induction n generalizing s with
  | zero => rfl
  | succ n ih => rw [Function.iterate_succ_apply, ih, State.after_params]

/-- A busy block without reset goes through the iterates of `Regs.advance`, whatever its inputs. -/
theorem busy_run_regs (n : Nat) (s : State) (hb : ∀ k, k < n → ((Regs.advance s.params)^[k] s.regs).ph ≠ .idle)
    (hr : NoResetDuring n s) : (State.after^[n] s).regs = (Regs.advance s.params)^[n] s.regs := by
  induction n with
  | zero => rfl
  | succ n ih =>
    have ih := ih (fun k hk => hb k (Nat.lt_succ_of_lt hk)) (hr.mono (Nat.le_succ n))
    have hn := (noResetDuring_iff (n + 1) s).1 hr n (Nat.lt_succ_self n)
    have hbn := hb n (Nat.lt_succ_self n)
    rw [← ih] at hbn
    rw [Function.iterate_succ_apply', Function.iterate_succ_apply', State.after_busy _ hn hbn, State.commit_regs, ih,
      iterate_after_params]

/-- A dwell runs its timer down and does nothing else. -/
theorem advance_iterate_dwell (p : Params) (r : Regs) (h : r.ph ≠ .idle) (k : Nat) (hk : k ≤ r.tmr) :
    (Regs.advance p)^[k] r = { r with tmr := r.tmr - k } := by
  induction k with
  | zero => rfl
  | succ k ih =>
    have hb : ({ r with tmr := r.tmr - k } : Regs).ph ≠ .idle := h
    rw [Function.iterate_succ_apply', ih (Nat.le_of_succ_le hk), Regs.advance_dwell _ _ hb (Nat.sub_ne_zero_of_lt hk)]
    rfl

/-- The inputs after an edge are among those before it. -/
theorem after_inputs_subset (s : State) : s.after.inputs ⊆ s.inputs := by
  have hc : s.consumeInput.inputs ⊆ s.inputs := by
    unfold State.consumeInput
    cases s.inputs with
    | nil => exact List.Subset.refl _
    | cons x rest =>
      cases x with
      | edge p => exact List.subset_cons_self _ _
      | offer w =>
        dsimp only
        split
        · exact List.subset_cons_self _ _
        · exact List.Subset.refl _
  unfold State.after
  split
  · exact hc
  · split <;> exact hc

/-- With no reset among the inputs to come, no reset happens. -/
theorem noResetDuring_of_inputs (n : Nat) (s : State) (h : ∀ p, .edge p ∈ s.inputs → p.rst = false) :
    NoResetDuring n s := by
  induction n generalizing s with
  | zero => intro k t hk; exact absurd hk (Nat.not_lt_zero k)
  | succ n ih =>
    rw [noResetDuring_succ]
    refine ⟨?_, ih s.after fun p hp => h p (after_inputs_subset s hp)⟩
    cases hs : s.inputs with
    | nil => rw [State.ports_nil s hs]; rfl
    | cons x rest =>
      cases x with
      | edge p => rw [State.ports_edge s p rest hs]; exact h p (by simp [hs])
      | offer w => rw [State.ports_offer s w rest hs]

/-- Accepting is what an idle block with a word offered and reset released does. -/
theorem accepts_eq_some (s : State) (i : Instr) (h : s.accepts = some i) :
    s.ports.rst = false ∧ s.regs.ph = .idle ∧ s.ports.reqValid = true ∧ decode s.ports.reqWord = i := by
  unfold State.accepts at h
  split at h
  · next hc => exact ⟨hc.1, hc.2.1, hc.2.2, by simpa using h⟩
  · cases h

theorem acceptedDuring_succ (n : Nat) (s : State) :
    acceptedDuring (n + 1) s = s.accepts.toList ++ acceptedDuring n s.after := by
  simp [acceptedDuring, step_eq_after]

theorem writesDuring_succ (k n : Nat) (s : State) :
    writesDuring k (n + 1) s = (s.lineWrites.map fun w => (k, w)) ++ writesDuring (k + 1) n s.after := by
  simp [writesDuring, step_eq_after]

end Sys2Proof.Machine
end

