-- ==== Sys2Proof/Laws/Tick.lean ====
section
/-! SUPPORT. The three helpers of R62 as Machine/Tick.lean writes them out, and the machine's own: one equation each, which a
comparison of `tick` with the step cites. -/

namespace Sys2Proof.Machine

theorem tickGuard_eq_guard (p : Params) (r : Regs) : tickGuard p r = r.guard p := by
  unfold tickGuard Regs.guard
  split <;> simp_all

theorem tickSingle_eq_single (r : Regs) : tickSingle r = r.single := by
  unfold tickSingle Regs.single
  split <;> simp_all

theorem tickStartStep_eq_startStep (p : Params) (k : Fin 9) (r : Regs) : tickStartStep p k r = r.startStep p k := by
  unfold tickStartStep Regs.startStep
  split <;> simp_all

end Sys2Proof.Machine
end

