-- ==== Sys2Proof/Laws/Wave.lean ====
section
/-! SUPPORT. The waveform of one nibble period is what the sequencer does, cycle by cycle. -/

namespace Sys2Proof.Machine

/-- Inside a nibble period one edge of the sequencer moves the waveform one cycle on. -/
theorem nibbleWave_advance (p : Params) (g : Nat) (half : Bool) (n : Nibble) (r : Regs) (i : Nat) (hg : g = r.guard p)
    (hi : i + 1 < nibblePeriod p + g) :
    (nibbleWave p g half n r i).advance p = nibbleWave p g half n r (i + 1) := by
  have h1 := p.nEnLow_pos
  have h2 := p.nEnHigh_pos
  have h3 := p.nSettle_pos
  unfold nibblePeriod at hi
  unfold nibbleWave
  dsimp only
  simp only [Nat.add_eq_zero_iff, one_ne_zero, and_false, if_false]
  by_cases c0 : i = 0
  · subst c0
    have : 0 + 1 ≤ p.nEnLow := by omega
    simp [Regs.advance, Regs.phaseEnd, this]
  by_cases c1 : i ≤ p.nEnLow
  · by_cases c2 : i + 1 ≤ p.nEnLow
    · have : p.nEnLow - i ≠ 0 := by omega
      simp [Regs.advance, c0, c1, c2, this]
      omega
    · have : p.nEnLow - i = 0 := by omega
      have c3 : i + 1 ≤ p.nEnLow + p.nEnHigh := by omega
      simp [Regs.advance, c0, c1, c2, c3, this, Regs.phaseEnd]
      omega
  have d1 : ¬ i + 1 ≤ p.nEnLow := by omega
  by_cases c2 : i ≤ p.nEnLow + p.nEnHigh
  · by_cases c3 : i + 1 ≤ p.nEnLow + p.nEnHigh
    · have : p.nEnLow + p.nEnHigh - i ≠ 0 := by omega
      simp [Regs.advance, c0, c1, c2, c3, d1, this]
      omega
    · have : p.nEnLow + p.nEnHigh - i = 0 := by omega
      simp only [Regs.guard] at hg
      simp [Regs.advance, c0, c1, c2, c3, d1, this, Regs.phaseEnd, Regs.guard]
      omega
  · have c3 : ¬ i + 1 ≤ p.nEnLow + p.nEnHigh := by omega
    have : p.nEnLow + p.nEnHigh + p.nSettle + g - i ≠ 0 := by omega
    simp [Regs.advance, c0, c1, c2, c3, d1, this]
    omega

/-- A nibble period ends in `SETTLE` with the timer run down. -/
theorem nibbleWave_last (p : Params) (g : Nat) (half : Bool) (n : Nibble) (r : Regs) :
    nibbleWave p g half n r (nibblePeriod p + g - 1) =
      { r with half := half, db := n, en := false, ph := .settle, tmr := 0 } := by
  have h3 := p.nSettle_pos
  have e0 : ¬ nibblePeriod p + g - 1 = 0 := by unfold nibblePeriod; omega
  have e1 : ¬ nibblePeriod p + g - 1 ≤ p.nEnLow := by unfold nibblePeriod; omega
  have e2 : ¬ nibblePeriod p + g - 1 ≤ p.nEnLow + p.nEnHigh := by unfold nibblePeriod; omega
  have e3 : p.nEnLow + p.nEnHigh + p.nSettle + g - (nibblePeriod p + g - 1) = 0 := by unfold nibblePeriod; omega
  simp [nibbleWave, e0, e1, e2, e3]

end Sys2Proof.Machine
end

