-- ==== Sys2Proof/Tests/Slice0.lean ====
section
/-! SUPPORT. Tests: values from 95_test_vectors.md (named in each comment), one step each; the well-formedness smoke test; and
for every statement with hypotheses a witness that meets them. -/

namespace Sys2Proof.Tests
open Sys2Proof.Machine

/-! ## Helpers -/

/-- The parameters of IV1 (and, for a SEND, TV1): `N_SETTLE` = 2, `N_POWERUP` = 3, guards 2, 1, 0. -/
def small : Params :=
  ⟨{ RawParams.default with nSettle := 2, nPowerup := 3, nGuard1 := 2, nGuard2 := 1, nGuard3 := 0 }, by decide⟩

/-- The dwells of TV2: 2, 3, 4. -/
def uneven : Params := ⟨{ RawParams.default with nEnLow := 2, nEnHigh := 3, nSettle := 4 }, by decide⟩

/-- The minimum dwells of TV13. -/
def least : Params := ⟨{ RawParams.default with nSettle := 1, nPowerup := 1 }, by decide⟩

/-- A state with the small parameters, nothing latched. -/
def at_ (r : Regs) (inputs : List Stimulus) : State := ⟨small, r, inputs, [], 0⟩

/-- The registers in the middle of TV1: `SEND.CMD 0xA5`, high nibble, in the given phase. -/
def tv1 (ph : Phase) (tmr : Nat) : Regs :=
  { Regs.reset with val := 0xA5, db := 0xA, ph := ph, tmr := tmr, en := ph == .enhi }

/-- The registers in the middle of IV1, at a step of the initializer. -/
def iv1 (k : Fin 9) (v : Byte) (n : Nibble) (half : Bool) (ph : Phase) (tmr : Nat) : Regs :=
  { Regs.reset with val := v, db := n, half := half, ph := ph, tmr := tmr, inInit := true, istep := k, en := ph == .enhi }

/-- The state a step answers; the state itself if it answered none. -/
def after (s : State) : State :=
  match step s with
  | .next t => t
  | .fault _ => s
  | .refused _ => s

/-! ## Decoding: the words of 95_test_vectors.md section 2, bit by bit from R46 -/

theorem test_decode_sendCmd : decode 0b0001001000 = .sendCmd 0x48 ∧ decode 0b0000000001 = .sendCmd 0x01 := by decide
theorem test_decode_sendChr : decode 0b0101001000 = .sendChr 0x48 ∧ decode 0b0100001010 = .sendChr 0x0A := by decide
theorem test_decode_init : decode 0b1000000000 = .init ∧ decode 0b1100000000 = .init := by decide
theorem test_decodeTableWord : decodeTableWord 16 0x0FF = some (.sendCmd 0xFF) ∧
    decodeTableWord 16 0x1FF = some (.sendChr 0xFF) ∧ decodeTableWord 16 0x3FF = some .init := by decide
theorem test_encode : encode (.sendCmd 0xC0) = 0x0C0 ∧ encode (.sendChr 0x69) = 0x169 ∧ encode .init = 0x200 := by decide

/-! ## Well-formedness: an ill-formed table for each range of R6, refused; the requests all well formed -/

theorem test_refuse_tTick : Params.ofRaw { RawParams.default with tTick := 0 } = none := by decide
theorem test_refuse_nEnLow : Params.ofRaw { RawParams.default with nEnLow := 0 } = none := by decide
theorem test_refuse_nEnHigh : Params.ofRaw { RawParams.default with nEnHigh := 0 } = none := by decide
theorem test_refuse_nSettle : Params.ofRaw { RawParams.default with nSettle := 0 } = none := by decide
theorem test_refuse_nPowerup : Params.ofRaw { RawParams.default with nPowerup := 0 } = none := by decide
theorem test_refuse_dwell : Params.ofRaw { RawParams.default with nPowerup := 65536 } = none := by decide
theorem test_refuse_guard : Params.ofRaw { RawParams.default with nGuard1 := 65436 } = none := by decide
theorem test_accept_guard : (Params.ofRaw { RawParams.default with nGuard1 := 65435 }).isSome = true := by decide
theorem test_wf : (Instr.sendCmd 0x00).wf = true ∧ (Instr.sendChr 0xFF).wf = true ∧ Instr.init.wf = true := by decide

/-! ## One step -/

/-- TV1, edge 0. -/
theorem test_sendCmd_accepted : (after (at_ .reset [.offer 0x0A5])).regs =
    { Regs.reset with val := 0xA5, ph := .rs } := by decide

/-- TV1, edge 6: the low nibble. -/
theorem test_sendCmd_low_nibble : (after (at_ (tv1 .settle 0) [])).regs =
    { tv1 .db 0 with db := 0x5, half := true } := by decide

/-- TV10, edge 1, through the host's placing of a word. -/
theorem test_sendChr_accepted : (after (State.reset.withFetchWord 16 0x148)).regs =
    { Regs.reset with rs := true, val := 0x48, ph := .rs } := by decide

/-- TV1, edge 4, with RS high: the falling edge latches the pair. -/
theorem test_sendChr_latched : (after (at_ { tv1 .enhi 0 with rs := true } [])).latched = [⟨true, 0xA⟩] := by decide

/-- IV3 and IV1, edge 0: the low bits of the word are not loaded. -/
theorem test_init_accepted : (after (at_ .reset [.offer 0x3FF])).regs =
    { Regs.reset with inInit := true, ph := .wait, tmr := 2 } := by decide

/-- IV1, edge 74. -/
theorem test_init_done : (after (at_ (iv1 8 0x01 0x1 true .settle 0) [])).regs =
    { Regs.reset with val := 0x01, db := 0x1, half := true, initDone := true } := by decide

/-- IV1, edge 3: step 1 starts. -/
theorem test_step1_starts : (after (at_ (iv1 0 0x00 0x0 false .wait 0) [])).regs =
    iv1 1 0x30 0x0 false .rs 0 := by decide

/-- IV1, edge 7: the settle of step 1 is lengthened by its guard. -/
theorem test_guard : (after (at_ (iv1 1 0x30 0x3 false .enhi 0) [])).regs = iv1 1 0x30 0x3 false .settle 3 := by decide

/-- IV1, edge 24: a single nibble's settle ends in the next step. -/
theorem test_single_nibble : (after (at_ (iv1 3 0x30 0x3 false .settle 0) [])).regs =
    iv1 4 0x20 0x3 false .rs 0 := by decide

/-- TV10, edge 0: reset wins over the offer. -/
theorem test_reset_wins : (after (at_ (tv1 .settle 1) [.edge ⟨true, true, 0x148⟩])).regs = Regs.reset := by decide

/-- TV11, edge 4: a reset that finds EN high latches one entry (of unspecified value). -/
theorem test_reset_latches_one : (after (at_ (tv1 .enhi 0) [.edge ⟨true, false, 0⟩])).latched.length = 1 := by decide

/-- TV7: an offer waits while the block is busy. -/
theorem test_offer_waits : (after (at_ (tv1 .db 0) [.offer 0x0C0])).inputs = [.offer 0x0C0] := by decide

/-! ## Tables of the spec -/

/-- TV5: the lines of the first nibble of 0x81. -/
theorem test_lines : ({ Regs.reset with db := hiNibble 0x81 } : Regs).outputs.lines =
    [false, false, false, false, false, true] := by decide

/-- TV2, cycles 14, 20 and 21. -/
theorem test_sendWave : sendWave uneven .char 0x5A .reset 14 =
      { Regs.reset with rs := true, en := true, db := 0xA, val := 0x5A, half := true, ph := .enhi, tmr := 2 } ∧
    (sendWave uneven .char 0x5A .reset 20).tmr = 0 ∧ (sendWave uneven .char 0x5A .reset 21).ph = .idle := by decide

/-- IV1 and IV2: the first cycle of each step, and of `IDLE`. -/
theorem test_stepStart : (List.range 10).map (stepStart small) = [0, 3, 11, 18, 24, 30, 41, 52, 63, 74] ∧
    (List.range 10).map (stepStart .default) =
      [0, 40000, 44604, 44808, 44912, 45016, 45223, 45430, 45637, 45844] := by decide

/-- IV1, cycle 16 (step 2, `SETTLE`, 1 left). -/
theorem test_initWave : initWave small .reset 2 5 = iv1 2 0x30 0x3 false .settle 1 := by decide

/-- R72 and R84, the defaults. -/
theorem test_cycles : requestCycles .default (.sendCmd 0) = 207 ∧ requestCycles .default .init = 45844 := by decide

/-- EV2. -/
theorem test_sendCmd_events : requestEvents .default (.sendCmd 0x01) =
    [.set (.setRS false), .set (.setDB 0), .set (.setEN false), .hold 1, .set (.setEN true), .hold 1, .set (.setEN false),
     .hold 100, .set (.setDB 1), .set (.setEN false), .hold 1, .set (.setEN true), .hold 1, .set (.setEN false),
     .hold 100] := by decide

/-- EV4: 95 events. -/
theorem test_init_events : (requestEvents .default .init).length = 95 := by decide

/-- IV4: other constants, other pairs. -/
theorem test_contribution : contribution
      ⟨{ RawParams.default with cFunctionSet := 0x3C, cEntryMode := 0x04, cDisplayCtrl := 0x0F }, by decide⟩ .init =
    [⟨false, 3⟩, ⟨false, 3⟩, ⟨false, 3⟩, ⟨false, 2⟩, ⟨false, 3⟩, ⟨false, 0xC⟩, ⟨false, 0⟩, ⟨false, 4⟩, ⟨false, 0⟩,
     ⟨false, 0xF⟩, ⟨false, 0⟩, ⟨false, 1⟩] := by decide

/-- EV5: `NIBBLE` of EV1 with slower holds conforms; with the settle cut short it does not. -/
theorem test_conforms :
    conforms 0 0 2020 (nibbleEvents .default 4)
      [(0, .setDB 4), (1, .setEN false), (8, .setEN true), (15, .setEN false)] = true ∧
    conforms 0 0 114 (nibbleEvents .default 4)
      [(0, .setDB 4), (1, .setEN false), (8, .setEN true), (15, .setEN false)] = false := by decide

/-- R55: the syntax, with P3's label, a comment, a quoted semicolon, and a number too large. -/
theorem test_asm_label : parseLine "A: SEND.CHR 'x'".toList = .ok ⟨some ['A'], some (.sendChr 0x78)⟩ := by rfl
theorem test_asm_comment : parseLine "SEND.CMD 0x48   ; 0x048".toList = .ok ⟨none, some (.sendCmd 0x48)⟩ := by rfl
theorem test_asm_quoted : parseLine "SEND.CHR ';' ; a semicolon".toList = .ok ⟨none, some (.sendChr 0x3B)⟩ := by rfl
theorem test_asm_decimal : parseLine "SEND.CMD 255".toList = .ok ⟨none, some (.sendCmd 0xFF)⟩ ∧
    parseLine "SEND.CMD 256".toList = .error .badByte := ⟨by rfl, by rfl⟩

/-! ## Witnesses: states and operands that meet the hypotheses of the statements -/

/-- The invariant of concrete registers from its clauses, one decidable fact. -/
theorem inv_of {p : Params} {r : Regs}
    (h : (r.ph = .idle → r.tmr = 0 ∧ r.inInit = false ∧ r.istep = 0 ∧ r.en = false) ∧
      (r.inInit = true → r.ph ≠ .idle ∧ r.istep.val ≤ 8) ∧ (r.en = true ↔ r.ph = .enhi) ∧
      ((r.ph = .wait → r.inInit = true ∧ r.istep = 0) ∧ (r.inInit = true ∧ r.istep = 0 → r.ph = .wait)) ∧
      (r.half = true → r.ph = .db ∨ r.ph = .enlo ∨ r.ph = .enhi ∨ r.ph = .settle ∨ r.ph = .idle) ∧
      (r.ph.code ≠ 7 ∧ r.istep.val ≤ 8) ∧ (r.initDone = true → r.inInit = false) ∧
      (r.inInit = false → r.istep = 0) ∧ (r.half = true → r.single = false) ∧ (r.ph ≠ .idle → r.tmr < r.dwell p)) :
    r.Inv p :=
  ⟨⟨h.1, h.2.1, h.2.2.1, h.2.2.2.1, h.2.2.2.2.1, h.2.2.2.2.2.1, h.2.2.2.2.2.2.1⟩, h.2.2.2.2.2.2.2.1,
    h.2.2.2.2.2.2.2.2.1, h.2.2.2.2.2.2.2.2.2⟩

/-- A reset to come. -/
def rstEdge : Stimulus := .edge ⟨true, true, 0x148⟩

theorem idle_inv (inputs : List Stimulus) : (at_ .reset inputs).Inv := inv_of (p := small) (r := .reset) (by decide)

/-- No reset among the inputs of a state, no reset in its runs. -/
theorem quiet_at (r : Regs) (n : Nat) : NoResetDuring n (at_ r []) :=
  noResetDuring_of_inputs n _ (by simp [at_])

theorem witness_EveryWordSelectsOneRow : (0x0FF#10 &&& 0x300 = 0x000) ∧ (0x100#10 &&& 0x300 = 0x100) ∧
    (0x1FF#10 &&& 0x300 = 0x100) ∧ (0x200#10 &&& 0x200 = 0x200) ∧ (0x3FF#10 &&& 0x200 = 0x200) := by decide

theorem witness_StepExecutesOfferedRequest :
    ((at_ .reset [.offer 0x148]).ports.rst = false ∧ (at_ .reset [.offer 0x148]).ports.reqValid = true) ∧
    ((at_ (tv1 .db 0) [.edge ⟨false, true, 0x200⟩]).ports.rst = false ∧
      (at_ (tv1 .db 0) [.edge ⟨false, true, 0x200⟩]).ports.reqValid = true) := by decide

theorem witness_PlacedWordExecutedNext : State.reset.regs.ph = .idle := by decide

theorem witness_ResetWinsOverEverything :
    (at_ (tv1 .settle 1) [rstEdge, .offer 0x148]).ports.rst = true ∧
    (after (at_ (tv1 .settle 1) [rstEdge, .offer 0x148])).ports.rst = false ∧
    (after (at_ (tv1 .settle 1) [rstEdge, .offer 0x148])).ports.reqValid = true := by decide

theorem witness_PortsAfterReset :
    (at_ (tv1 .enhi 0) [rstEdge]).ports.rst = true ∧ ∃ t, step (at_ (tv1 .enhi 0) [rstEdge]) = .next t :=
  ⟨by decide, _, rfl⟩

theorem witness_ResetLatchesOnlyIfEnWasHigh :
    ((at_ (tv1 .enhi 0) [rstEdge]).ports.rst = true ∧ (at_ (tv1 .enhi 0) [rstEdge]).regs.en = true ∧
      ∃ t, step (at_ (tv1 .enhi 0) [rstEdge]) = .next t) ∧
    ((at_ (tv1 .enlo 0) [rstEdge]).ports.rst = true ∧ (at_ (tv1 .enlo 0) [rstEdge]).regs.en = false ∧
      ∃ t, step (at_ (tv1 .enlo 0) [rstEdge]) = .next t) :=
  ⟨⟨by decide, by decide, _, rfl⟩, by decide, by decide, _, rfl⟩

theorem witness_IdleHoldsWithoutRequest :
    (at_ .reset []).ports.rst = false ∧ (at_ .reset []).ports.reqValid = false ∧ (at_ .reset []).regs.ph = .idle := by
  decide

/-- For SendCmdAccepted, SendChrAccepted and InitAccepted. -/
theorem witness_Accepted : (at_ .reset []).regs.ph = .idle := by decide

theorem witness_OfferIgnoredWhileBusy :
    (at_ (tv1 .db 0) [.offer 0x148]).regs.ph ≠ .idle ∧ (at_ (tv1 .db 0) [.offer 0x148]).ports.rst = false ∧
    (at_ (tv1 .db 0) [.edge ⟨false, true, 0x200⟩]).ports.rst = false ∧
    (at_ (tv1 .db 0) [.offer 0x148]).inputs = .offer 0x148 :: [] ∧
    (∃ t, step (at_ (tv1 .db 0) [.offer 0x148]) = .next t) ∧
    ∃ u, step (at_ (tv1 .db 0) [.edge ⟨false, true, 0x200⟩]) = .next u :=
  ⟨by decide, by decide, by decide, rfl, ⟨_, rfl⟩, _, rfl⟩

theorem witness_DwellTimerCounts :
    ((at_ (tv1 .settle 1) []).Inv ∧ (tv1 .settle 1).ph ≠ .idle ∧ (tv1 .settle 1).tmr ≠ 0) ∧
    ((at_ (tv1 .enhi 0) []).Inv ∧ (tv1 .enhi 0).tmr = 0 ∧
      (after (at_ (tv1 .enhi 0) [])).regs.ph ≠ (at_ (tv1 .enhi 0) []).regs.ph) ∧
    ((at_ .reset []).Inv ∧ (after (at_ .reset [])).regs.ph = .idle) ∧ (at_ (tv1 .enhi 0) []).ports.rst = false :=
  ⟨⟨inv_of (p := small) (r := tv1 .settle 1) (by decide), by decide, by decide⟩,
   ⟨inv_of (p := small) (r := tv1 .enhi 0) (by decide), by decide, by decide⟩,
   ⟨idle_inv [], by decide⟩, by decide⟩

theorem witness_PhaseSuccessors_accepting :
    (at_ .reset [.offer 0x048]).accepts = some (.sendCmd 0x48) ∧
    (at_ .reset [.offer 0x148]).accepts = some (.sendChr 0x48) ∧ (at_ .reset [.offer 0x3FF]).accepts = some .init ∧
    (at_ .reset []).accepts = none ∧ ∃ t, step (at_ .reset []) = .next t :=
  ⟨by decide, by decide, by decide, by decide, _, rfl⟩

/-- The four ways out of `SETTLE` and the bounds of `istep` (single nibble at 4, last step 8, one before it 7). -/
theorem witness_PhaseSuccessors_settle :
    ((tv1 .settle 0).half = false ∧ (tv1 .settle 0).single = false) ∧
    ((iv1 4 0x20 0x2 false .settle 0).single = true ∧ (iv1 4 0x20 0x2 false .settle 0).istep.val < 8) ∧
    ((iv1 7 0x0C 0xC true .settle 0).half = true ∧ (iv1 7 0x0C 0xC true .settle 0).istep.val < 8) ∧
    ((iv1 8 0x01 0x1 true .settle 0).half = true ∧ (iv1 8 0x01 0x1 true .settle 0).istep = 8) ∧
    (tv1 .settle 1).tmr ≠ 0 ∧ (iv1 0 0 0 false .wait 0).tmr = 0 := by decide

/-- The other phases at their end, and the second nibble of a SEND, whose `SETTLE` ends in `IDLE`. -/
theorem witness_PhaseSuccessors_phases :
    [Phase.rs, .db, .enlo, .enhi].map (fun ph => ((tv1 ph 0).ph, (tv1 ph 0).tmr)) =
      [(.rs, 0), (.db, 0), (.enlo, 0), (.enhi, 0)] ∧
    ({ tv1 .settle 0 with half := true } : Regs).half = true ∧
    ({ tv1 .settle 0 with half := true } : Regs).inInit = false ∧ (at_ (tv1 .rs 0) []).ports.rst = false := by decide

theorem witness_InitStepsInOrder :
    ((at_ (iv1 7 0x0C 0xC true .settle 0) []).Inv ∧
      (after (at_ (iv1 7 0x0C 0xC true .settle 0) [])).regs.istep ≠ (at_ (iv1 7 0x0C 0xC true .settle 0) []).regs.istep) ∧
    ((at_ (iv1 8 0x01 0x1 true .settle 0) []).Inv ∧
      (after (at_ (iv1 8 0x01 0x1 true .settle 0) [])).regs.istep ≠
        (at_ (iv1 8 0x01 0x1 true .settle 0) []).regs.istep) :=
  ⟨⟨inv_of (p := small) (r := iv1 7 0x0C 0xC true .settle 0) (by decide), by decide⟩,
   inv_of (p := small) (r := iv1 8 0x01 0x1 true .settle 0) (by decide), by decide⟩

/-- For FlagsChangeOnlyAsListed, LinesChangeOnlyByTheWrites, GhostsAreNotRead, InitDoneIsNotRead and DataAreNotInspected:
steps with and without reset. -/
theorem witness_Steps :
    ((at_ (tv1 .enhi 0) [rstEdge]).ports.rst = true ∧ ∃ t, step (at_ (tv1 .enhi 0) [rstEdge]) = .next t) ∧
    ((at_ (tv1 .enhi 0) []).ports.rst = false ∧ ∃ t, step (at_ (tv1 .enhi 0) []) = .next t) :=
  ⟨⟨by decide, _, rfl⟩, by decide, _, rfl⟩

theorem witness_NibbleBitsOnTheLines :
    ({ Regs.reset with db := 0x8 } : Regs).db = hiNibble 0x81 ∧ ({ Regs.reset with db := 0x1 } : Regs).db = loNibble 0x81 := by
  decide

theorem witness_LatchedGrowsOnlyAtTheEndOfEnhi :
    (at_ (tv1 .enhi 0) []).Inv ∧ (at_ (tv1 .enhi 0) []).ports.rst = false ∧
    (after (at_ (tv1 .enhi 0) [])).regs.en ≠ (at_ (tv1 .enhi 0) []).regs.en :=
  ⟨inv_of (p := small) (r := tv1 .enhi 0) (by decide), by decide, by decide⟩

theorem witness_RsChangesOnlyWhenATransferStarts :
    (at_ .reset [.offer 0x148]).Inv ∧ (at_ .reset [.offer 0x148]).ports.rst = false ∧
    (after (at_ .reset [.offer 0x148])).regs.rs ≠ (at_ .reset [.offer 0x148]).regs.rs :=
  ⟨idle_inv _, by decide, by decide⟩

/-- For EveryStepKeepsTheInvariant, EveryStepKeepsWhatATransferCarries and TimerFitsItsWidth: a busy state, its timer at the
top of its dwell. -/
theorem witness_Invariants :
    (at_ (iv1 1 0x30 0x3 false .settle 3) []).Inv ∧
    (iv1 1 0x30 0x3 false .settle 3).Carries small ∧ ∃ t, step (at_ (iv1 1 0x30 0x3 false .settle 3) []) = .next t :=
  ⟨inv_of (p := small) (r := iv1 1 0x30 0x3 false .settle 3) (by decide), ⟨by decide, by decide, by decide⟩, _, rfl⟩

theorem witness_ReachableStatesSatisfyR29 : Reachable (after (State.start small [.offer 0x148])) :=
  ⟨small, [.offer 0x148], 1, rfl⟩

theorem witness_TickPeriodIsNotRead :
    (⟨{ RawParams.default with tTick := 500 }, by decide⟩ : Params).toRawParams =
      { State.reset.params.toRawParams with tTick := 500 } ∧ ∃ t, step State.reset = .next t :=
  ⟨rfl, _, rfl⟩

/-- For SendWaveform, SendCompletes, InitWaveform and InitCompletes: an idle state, and no reset after the acceptance. -/
theorem witness_WholeRequests :
    (at_ .reset []).Inv ∧ (at_ .reset []).regs.ph = .idle ∧
    (∃ a, exec (sendCall 0x5A .char) (at_ .reset []) = .next a ∧ NoResetDuring (sendCycles small) a) ∧
    (∃ a, exec .init (at_ .reset []) = .next a ∧ NoResetDuring (initCycles small) a ∧
      NoResetDuring (stepStart small 9) a) ∧
    0 < stepLength small 0 ∧ 10 < stepLength small 8 :=
  ⟨idle_inv [], by decide, ⟨_, rfl, quiet_at _ _⟩, ⟨_, rfl, quiet_at _ _, quiet_at _ _⟩, by decide, by decide⟩

theorem witness_EveryRequestEnds :
    (at_ (iv1 1 0x30 0x3 false .settle 3) []).Inv ∧ NoResetDuring (initCycles small) (at_ (iv1 1 0x30 0x3 false .settle 3) []) :=
  ⟨inv_of (p := small) (r := iv1 1 0x30 0x3 false .settle 3) (by decide), quiet_at _ _⟩

/-- For BackToBackSends and TicksRefineEvents: a request accepted, another one waiting, no reset. -/
theorem witness_AcceptingRuns (n : Nat) :
    (at_ .reset [.offer 0x15A, .offer 0x200]).Inv ∧
    (at_ .reset [.offer 0x15A, .offer 0x200]).accepts = some (sendCall 0x5A .char) ∧
    NoResetDuring n (at_ .reset [.offer 0x15A, .offer 0x200]) :=
  ⟨idle_inv _, by decide, noResetDuring_of_inputs n _ (by simp [at_])⟩

/-- TV13: with the least dwells a SEND is over after ten edges. -/
theorem witness_LatchedIsWholeContributionsInOrder :
    let s := State.start least [.offer 0x15A]
    s.Inv ∧ s.regs.ph = .idle ∧ NoResetDuring 10 s ∧ ∃ t, Runs 10 s t ∧ t.regs.ph = .idle :=
  ⟨inv_of (p := least) (r := .reset) (by decide), rfl, noResetDuring_of_inputs 10 _ (by simp [State.start]), _, rfl, rfl⟩

/-- P3, second row: the programs of two requesters, B before A. -/
theorem witness_MergedProgramsArePerformed :
    IsMerge [[.sendChr 0x41], [.sendCmd 0xC0]] [.sendCmd 0xC0, .sendChr 0x41] ∧ (at_ .reset []).Inv ∧
    (at_ .reset []).regs.ph = .idle :=
  ⟨.take [[.sendChr 0x41]] [] _ [] _ (.take [] [[]] _ [] _ (.done _ (by simp))), idle_inv [], rfl⟩

theorem witness_EventsLatchTheContribution : Regs.reset.lines.en = false := by decide

/-- For SlowerBehavioursLatchTheSame and NibbleHoldsAreLowerBounds: a behaviour slower than the reference (EV5). -/
theorem witness_Conforming :
    conforms 0 0 2020 (nibbleEvents .default 4)
      [(0, .setDB 4), (1, .setEN false), (8, .setEN true), (15, .setEN false)] = true := test_conforms.1

theorem witness_TicksCoverTheDuration : (0 < 1 ∧ 1 ≤ 4500000 ∧ 4500000 ≤ 4500 * 1000) ∧ 1000 ≤ 1000 ∧ (0 < 999 ∧ 999 < 1000) := by
  decide

end Sys2Proof.Tests
end

section
/-! SUPPORT. The scope of the block (00_scope.md): the ranges of its parameters and the width of its timer (R6, R8), what it
does not read (R6, R9, R118), and what every conforming behaviour latches (R7, R10). -/

namespace Sys2Proof

/-! ## The ranges of the parameters (R6, R8) -/

theorem RawParams.dwells_lt_iff (p : RawParams) (bound : Nat) :
    (∀ n ∈ p.dwells, n < bound) ↔
      p.nEnLow < bound ∧ p.nEnHigh < bound ∧ p.nPowerup < bound ∧
      p.nSettle + max p.nGuard1 (max p.nGuard2 p.nGuard3) < bound := by
  simp only [RawParams.dwells, List.forall_mem_cons, List.not_mem_nil, false_imp_iff, implies_true, and_true]

theorem Params.ofRaw_eq_none_iff (p : RawParams) : Params.ofRaw p = none ↔ ¬ p.Legal := by
  simp [Params.ofRaw]

theorem Params.dwells_lt (p : Params) :
    p.nEnLow < 2 ^ p.tmrW ∧ p.nEnHigh < 2 ^ p.tmrW ∧ p.nPowerup < 2 ^ p.tmrW ∧
      p.nSettle + max p.nGuard1 (max p.nGuard2 p.nGuard3) < 2 ^ p.tmrW :=
  (p.dwells_lt_iff _).1 p.dwell_fits

/-- Settles O49: the legal ranges negated, the four dwells written out. -/
theorem parametersOutsideTheirRangeAreRefused : Obligations.ParametersOutsideTheirRangeAreRefused := by
  intro p
  rw [Params.ofRaw_eq_none_iff, RawParams.Legal, p.dwells_lt_iff]
  generalize 2 ^ p.tmrW = bound
  omega

/-- Settles O48: each count of the table computed at a tick of 1000 ns is the number in the default column. -/
theorem defaultsAreTheSourceMinima : Obligations.DefaultsAreTheSourceMinima :=
  ⟨by decide, rfl⟩

/-- The parameters with another tick period, which R6 only asks to be positive. -/
def Params.withTick (tTick : Nat) (h : 0 < tTick) (p : Params) : Params :=
  ⟨{ p.toRawParams with tTick := tTick }, h, p.legal.2⟩

theorem Params.eq_withTick {p q : Params} (h : p.toRawParams = { q.toRawParams with tTick := p.tTick }) :
    p = q.withTick p.tTick p.legal.1 := by
  cases p
  simpa [Params.withTick] using h

end Sys2Proof

namespace Sys2Proof.Machine

/-! ## The width of the timer (R8, R66(c)) -/

/-- A guard lengthens the settle by at most the longest of the three. -/
theorem Regs.guard_le (p : Params) (r : Regs) : r.guard p ≤ max p.nGuard1 (max p.nGuard2 p.nGuard3) := by
  unfold Regs.guard
  split
  · unfold stepGuard
    split <;> omega
  · exact Nat.zero_le _

/-- The dwell of every phase fits the timer. -/
theorem Regs.dwell_lt (p : Params) (r : Regs) : r.dwell p < 2 ^ p.tmrW := by
  obtain ⟨hLow, hHigh, hPowerup, hSettle⟩ := p.dwells_lt
  have hOne := p.nEnLow_pos
  have hGuard := r.guard_le p
  unfold Regs.dwell
  split <;> omega

/-- Settles O30: in `IDLE` the timer is 0, elsewhere below the dwell of the phase, which fits. -/
theorem timerFitsItsWidth : Obligations.TimerFitsItsWidth := by
  intro s hInv
  by_cases hp : s.regs.ph = .idle
  · obtain ⟨hTmr, -⟩ := hInv.r29.a hp
    rw [hTmr]
    exact Nat.two_pow_pos _
  · exact (hInv.timer hp).trans (s.regs.dwell_lt s.params)

/-! ## The four kinds of edge -/

/-- At an edge the block is reset, accepts, waits in `IDLE`, or goes on with the request in flight (R61, R89). -/
theorem State.edge_cases (s : State) :
    s.ports.rst = true ∨
    (s.ports.rst = false ∧ s.regs.ph = .idle ∧ s.ports.reqValid = true) ∨
    (s.ports.rst = false ∧ s.regs.ph = .idle ∧ s.ports.reqValid = false) ∨
    (s.ports.rst = false ∧ s.regs.ph ≠ .idle) := by
  cases s.ports.rst with
  | true => exact .inl rfl
  | false =>
    by_cases hp : s.regs.ph = .idle
    · cases s.ports.reqValid with
      | true => exact .inr (.inl ⟨rfl, hp, rfl⟩)
      | false => exact .inr (.inr (.inl ⟨rfl, hp, rfl⟩))
    · exact .inr (.inr (.inr ⟨rfl, hp⟩))

/-! ## The data are moved and not inspected (R9) -/

/-- The registers with other data in `val`, `db` and `rs`. -/
def Regs.withData (v : Byte) (n : Nibble) (b : Bool) (r : Regs) : Regs := { r with val := v, db := n, rs := b }

/-- `r'` is `r` but for the data it carries. -/
def Regs.SameButData (r r' : Regs) : Prop := ∃ v n b, r' = r.withData v n b

/-- A branch on one condition keeps the relation its arms have. -/
theorem Regs.SameButData.ite {c : Prop} [Decidable c] {r r' q q' : Regs} (ht : r.SameButData r') (he : q.SameButData q') :
    (if c then r else q).SameButData (if c then r' else q') := by
  split
  · exact ht
  · exact he

section
variable (p : Params) (v : Byte) (n : Nibble) (b : Bool) (r : Regs)

@[simp] theorem Regs.withData_ph : (r.withData v n b).ph = r.ph := rfl

theorem Regs.accept_sameButData (i : Instr) : (r.accept p i).SameButData ((r.withData v n b).accept p i) := by
  cases i <;> exact ⟨_, _, _, rfl⟩

theorem Regs.startStep_sameButData (k : Fin 9) : (r.startStep p k).SameButData ((r.withData v n b).startStep p k) :=
  ⟨_, _, _, rfl⟩

theorem Regs.settleEnd_sameButData : (r.settleEnd p).SameButData ((r.withData v n b).settleEnd p) :=
  .ite ⟨_, _, _, rfl⟩ (.ite (.ite ⟨_, _, _, rfl⟩ (r.startStep_sameButData p v n b _)) ⟨_, _, _, rfl⟩)

theorem Regs.phaseEnd_sameButData : (r.phaseEnd p).SameButData ((r.withData v n b).phaseEnd p) := by
  cases hp : r.ph with
  | settle =>
    rw [r.phaseEnd_settle p hp, (r.withData v n b).phaseEnd_settle p hp]
    exact r.settleEnd_sameButData p v n b
  | idle | wait | rs | db | enlo | enhi =>
    simp only [Regs.phaseEnd, Regs.withData_ph, hp]
    exact ⟨_, _, _, rfl⟩

theorem Regs.advance_sameButData : (r.advance p).SameButData ((r.withData v n b).advance p) :=
  .ite ⟨_, _, _, rfl⟩ (.ite ⟨_, _, _, rfl⟩ (r.phaseEnd_sameButData p v n b))

end

/-- The state with other data in its registers. -/
def State.withData (v : Byte) (n : Nibble) (b : Bool) (s : State) : State := { s with regs := s.regs.withData v n b }

/-- `t'` is `t` but for the data in its registers and the entries of `Latched`, as many in both. -/
def State.SameButData (t t' : State) : Prop :=
  ∃ v n b latched, t' = { t.withData v n b with latched := latched } ∧ latched.length = t.latched.length

section
variable (v : Byte) (n : Nibble) (b : Bool) (s : State)

theorem State.commit_latched_length (r : Regs) :
    (s.commit r).latched.length = s.latched.length + if s.regs.en = true ∧ r.en = false then 1 else 0 := by
  rw [State.commit_latched]
  split
  · exact List.length_append
  · rfl

/-- What is committed decides by EN alone, which is none of the data, whether `Latched` grows. -/
theorem State.commit_sameButData (r r' : Regs) (h : r.SameButData r') :
    (s.commit r).SameButData ((s.withData v n b).commit r') := by
  obtain ⟨v', n', b', rfl⟩ := h
  refine ⟨v', n', b', ((s.withData v n b).commit (r.withData v' n' b')).latched, rfl, ?_⟩
  rw [State.commit_latched_length, State.commit_latched_length]
  rfl

theorem State.after_sameButData : s.after.SameButData (s.withData v n b).after := by
  obtain hr | ⟨hr, hp, hv⟩ | ⟨hr, hp, hv⟩ | ⟨hr, hp⟩ := s.edge_cases
  · rw [s.after_reset hr, (s.withData v n b).after_reset hr]
    exact ⟨_, _, _, _, rfl, rfl⟩
  · rw [s.after_accept hr hp hv, (s.withData v n b).after_accept hr hp hv]
    obtain ⟨v', n', b', h⟩ := s.regs.accept_sameButData s.params v n b (decode s.ports.reqWord)
    exact ⟨v', n', b', s.latched, congrArg (fun r => { s.consumeInput with regs := r }) h, rfl⟩
  · rw [s.after_quiet hr hp hv, (s.withData v n b).after_quiet hr hp hv]
    exact ⟨v, n, b, _, rfl, rfl⟩
  · rw [s.after_busy hr hp, (s.withData v n b).after_busy hr hp]
    exact State.commit_sameButData v n b s.consumeInput _ _ (s.regs.advance_sameButData s.params v n b)

end

/-- Settles O33: every case of an edge moves the data on or leaves them, and branches on none of them. -/
theorem dataAreNotInspected : Obligations.DataAreNotInspected := by
  intro s t u v n b ht hu
  rw [step_next_iff] at ht hu
  subst ht
  obtain ⟨v', n', b', latched, hAfter, hLength⟩ := s.after_sameButData v n b
  have hu : u = { s.after.withData v' n' b' with latched := latched } := hu.trans hAfter
  subst hu
  exact ⟨rfl, hLength⟩

/-! ## The tick period is not read (R6, R118) -/

section
variable (tTick : Nat) (h : 0 < tTick) (p : Params) (r : Regs)

theorem stepByte_withTick (k : Fin 9) : stepByte (p.withTick tTick h) k = stepByte p k := rfl
theorem stepGuard_withTick (k : Fin 9) : stepGuard (p.withTick tTick h) k = stepGuard p k := rfl

theorem Regs.guard_withTick : r.guard (p.withTick tTick h) = r.guard p := by
  rw [Regs.guard, stepGuard_withTick, Regs.guard]

theorem Regs.startStep_withTick (k : Fin 9) : r.startStep (p.withTick tTick h) k = r.startStep p k := by
  rw [Regs.startStep, stepByte_withTick, Regs.startStep]

theorem Regs.settleEnd_withTick : r.settleEnd (p.withTick tTick h) = r.settleEnd p := by
  rw [Regs.settleEnd, Regs.startStep_withTick, Regs.settleEnd]

theorem Regs.phaseEnd_withTick : r.phaseEnd (p.withTick tTick h) = r.phaseEnd p := by
  unfold Regs.phaseEnd
  rw [Regs.startStep_withTick, Regs.guard_withTick, Regs.settleEnd_withTick]
  rfl

theorem Regs.advance_withTick : r.advance (p.withTick tTick h) = r.advance p := by
  rw [Regs.advance, Regs.phaseEnd_withTick, Regs.advance]

theorem Regs.accept_withTick (i : Instr) : r.accept (p.withTick tTick h) i = r.accept p i := by
  cases i <;> rfl

/-- The state with another tick period. -/
def State.withTick (s : State) : State := { s with params := s.params.withTick tTick h }

/-- An edge under another tick period is the same edge. -/
theorem State.after_withTick (s : State) : (s.withTick tTick h).after = s.after.withTick tTick h := by
  obtain hr | ⟨hr, hp, hv⟩ | ⟨hr, hp, hv⟩ | ⟨hr, hp⟩ := s.edge_cases
  · rw [s.after_reset hr, (s.withTick tTick h).after_reset hr]
    rfl
  · rw [s.after_accept hr hp hv, (s.withTick tTick h).after_accept hr hp hv, State.withTick, Regs.accept_withTick]
    rfl
  · rw [s.after_quiet hr hp hv, (s.withTick tTick h).after_quiet hr hp hv]
    rfl
  · rw [s.after_busy hr hp, (s.withTick tTick h).after_busy hr hp, State.withTick, Regs.advance_withTick]
    rfl

end

/-- Settles O34: a table that differs in `T_TICK` alone is the table with another tick period. -/
theorem tickPeriodIsNotRead : Obligations.TickPeriodIsNotRead := by
  intro s t u p hp ht hu
  rw [step_next_iff] at ht hu
  have hq : ({ s with params := p } : State) = s.withTick p.tTick p.legal.1 :=
    congrArg (fun q => { s with params := q }) (Params.eq_withTick hp)
  rw [ht, hu, hq, State.after_withTick, State.withTick, State.after_params, ← Params.eq_withTick hp]

/-! ## Every conforming behaviour latches the same (R7, R10, R70) -/

@[simp] theorem latchedOf_hold (l : Lines) (n : Nat) (es : List Event) :
    latchedOf l (.hold n :: es) = latchedOf l es := rfl

/-- After the same write the same pairs follow from lists that latch the same. -/
theorem latchedOf_set_congr (l : Lines) (w : LineWrite) (es fs : List Event)
    (h : latchedOf (l.write w) es = latchedOf (l.write w) fs) :
    latchedOf l (.set w :: es) = latchedOf l (.set w :: fs) := by
  simp only [latchedOf, h]

@[simp] theorem conforms_hold (t h tEnd n : Nat) (es : List Event) (ws : List (Nat × LineWrite)) :
    conforms t h tEnd (.hold n :: es) ws = conforms t (h + n) tEnd es ws := by
  simp only [conforms]

/-- A list that conforms to a `Set` begins with the same write, at or after the end of the holds. -/
theorem exists_of_conforms_set (t h tEnd : Nat) (w : LineWrite) (es : List Event) (ws : List (Nat × LineWrite))
    (hc : conforms t h tEnd (.set w :: es) ws = true) :
    ∃ t' ws', ws = (t', w) :: ws' ∧ t + h ≤ t' ∧ conforms t' 0 tEnd es ws' = true := by
  cases ws with
  | nil => simp [conforms] at hc
  | cons x ws =>
    obtain ⟨t', w'⟩ := x
    simp only [conforms, Bool.and_eq_true, beq_iff_eq, decide_eq_true_eq] at hc
    obtain ⟨⟨rfl, hTime⟩, hRest⟩ := hc
    exact ⟨t', ws, rfl, hTime, hRest⟩

/-- Only the empty list of writes conforms to the empty list of events. -/
theorem eq_nil_of_conforms_nil (t h tEnd : Nat) (ws : List (Nat × LineWrite)) (hc : conforms t h tEnd [] ws = true) :
    ws = [] := by
  cases ws with
  | nil => rfl
  | cons x ws => simp [conforms] at hc

/-- Settles O45, by induction on the events: a hold latches nothing, and a `Set` is matched by the same write. -/
theorem slowerBehavioursLatchTheSame : Obligations.SlowerBehavioursLatchTheSame := by
  intro events
  induction events with
  | nil =>
    intro l t h tEnd ws hc
    rw [eq_nil_of_conforms_nil t h tEnd ws hc, List.map_nil]
  | cons e es ih =>
    intro l t h tEnd ws hc
    cases e with
    | hold n =>
      rw [conforms_hold] at hc
      rw [latchedOf_hold]
      exact ih l t (h + n) tEnd ws hc
    | set w =>
      obtain ⟨t', ws', rfl, -, hRest⟩ := exists_of_conforms_set t h tEnd w es ws hc
      exact latchedOf_set_congr l w _ es (ih (l.write w) t' 0 tEnd ws' hRest)

end Sys2Proof.Machine
end

section
/-! SUPPORT. The state of the block (10_state.md): the invariant of its registers (R29) and what a transfer in progress carries
(R15, R33), kept by every edge; the dwell timer (R18), the order of the initializer's steps (R19), the flags (R25), the lines
(R14), and what no rule reads (R21, R24). -/

namespace Sys2Proof.Machine

/-! ## What an edge does to the registers -/

/-- What holds of the reset registers and after a hold in `IDLE`, an acceptance, a count of the timer and the end of a phase
holds after every edge. -/
theorem State.after_regs_cases (s : State) {P : Regs → Prop} (reset : P .reset) (hold : P s.regs)
    (accept : s.regs.ph = .idle → ∀ i, P (s.regs.accept s.params i))
    (dwell : P { s.regs with tmr := s.regs.tmr - 1 })
    (phaseEnd : s.regs.tmr = 0 → P (s.regs.phaseEnd s.params)) : P s.after.regs := by
  cases hr : s.ports.rst with
  | true => rwa [s.after_reset hr]
  | false =>
    obtain ⟨-, -, h⟩ | ⟨hp, -, h⟩ | ⟨-, -, h⟩ | ⟨-, ht, h⟩ := s.after_cases hr <;> rw [h]
    · exact hold
    · exact accept hp _
    · exact dwell
    · exact phaseEnd ht

/-- R29 (f) and the bound of (b) hold by type. -/
theorem Regs.codes_in_range (r : Regs) : r.ph.code ≠ 7 ∧ r.istep.val ≤ 8 :=
  ⟨by cases r.ph <;> decide, Nat.le_of_lt_succ r.istep.isLt⟩

/-- The step after one other than the last is not step 0. -/
theorem istep_succ_ne_zero {k : Fin 9} (h : k ≠ 8) : k + 1 ≠ 0 := by
  revert k; decide

theorem istep_succ_val {k : Fin 9} (h : k ≠ 8) : (k + 1).val = k.val + 1 :=
  Fin.val_add_one_of_lt (Fin.lt_last_iff_ne_last.2 h)

/-- Every step but the power-up wait has a byte (R74). -/
theorem stepByte_of_ne_zero (p : Params) {k : Fin 9} (h : k ≠ 0) (v : Byte) : stepByte p k = some ((stepByte p k).getD v) := by
  revert k; simp [Fin.forall_fin_succ, stepByte]

/-! ## The invariant (R29) -/

section
variable {p : Params} {r : Regs}

theorem Regs.Inv.en_eq_false (h : r.Inv p) (hp : r.ph ≠ .enhi) : r.en = false :=
  Bool.eq_false_iff.2 fun he => hp (h.r29.c.1 he)

theorem Regs.Inv.half_eq_false (h : r.Inv p) (hp : r.ph = .rs) : r.half = false := by
  cases hh : r.half with
  | false => rfl
  | true => simpa [hp] using h.r29.e hh

/-- In `IDLE` no INIT is in flight, and nothing else of R29 is at stake. -/
theorem Regs.inv_of_idle (hp : r.ph = .idle) (ht : r.tmr = 0) (hi : r.inInit = false) (hk : r.istep = 0)
    (he : r.en = false) : r.Inv p where
  r29 := {
    a := fun _ => ⟨ht, hi, hk, he⟩
    b := by simp [hi]
    c := by simp [he, hp]
    d := by simp [hp, hi]
    e := by simp [hp]
    f := r.codes_in_range
    g := fun _ => hi }
  outside := fun _ => hk
  pairs := fun _ => by simp [Regs.single, hi]
  timer := fun h => absurd hp h

theorem Regs.inv_reset : Regs.reset.Inv p := Regs.inv_of_idle rfl rfl rfl rfl rfl

/-- The first cycle of a transfer, whose RS level and byte are free: a transfer of an INIT belongs to a step other than 0. -/
theorem Regs.inv_of_rs (hp : r.ph = .rs) (ht : r.tmr = 0) (hh : r.half = false) (he : r.en = false)
    (hk : r.inInit = true ↔ r.istep ≠ 0) (hg : r.initDone = true → r.inInit = false) : r.Inv p where
  r29 := {
    a := by simp [hp]
    b := fun _ => ⟨by simp [hp], r.codes_in_range.2⟩
    c := by simp [he, hp]
    d := ⟨by simp [hp], fun ⟨hi, h0⟩ => absurd h0 (hk.1 hi)⟩
    e := by simp [hh]
    f := r.codes_in_range
    g := hg }
  outside := fun hi => by simpa [hi] using hk
  pairs := by simp [hh]
  timer := fun _ => by simp [ht, Regs.dwell, hp]

/-- A request accepted in `IDLE` starts a transfer outside an INIT, or step 0 of an INIT. -/
theorem Regs.Inv.accept (h : r.Inv p) (hp : r.ph = .idle) (i : Instr) : (r.accept p i).Inv p := by
  obtain ⟨-, hi, hk, he⟩ := h.r29.a hp
  have hSend (m : DataMode) (v : Byte) : (r.acceptSend m v).Inv p :=
    Regs.inv_of_rs rfl rfl rfl he (by simp [hi, hk]) fun _ => hi
  cases i with
  | sendCmd v => exact hSend .command v
  | sendChr v => exact hSend .char v
  | init =>
    exact {
      r29 := {
        a := by simp [Regs.accept]
        b := by simp [Regs.accept]
        c := by simp [Regs.accept, he]
        d := by simp [Regs.accept]
        e := by simp [Regs.accept]
        f := Regs.codes_in_range _
        g := by simp [Regs.accept] }
      outside := fun _ => rfl
      pairs := by simp [Regs.accept]
      timer := fun _ => Nat.sub_lt p.nPowerup_pos Nat.one_pos }

/-- The invariant bounds the timer from above only, and wants 0 in `IDLE`. -/
theorem Regs.Inv.dwell (h : r.Inv p) : Regs.Inv p { r with tmr := r.tmr - 1 } := by
  obtain ⟨⟨ha, hb, hc, hd, he, hf, hg⟩, hOutside, hPairs, hTimer⟩ := h
  refine ⟨⟨fun hp => ?_, hb, hc, hd, he, hf, hg⟩, hOutside, hPairs, fun hp => ?_⟩
  · obtain ⟨ht, hRest⟩ := ha hp
    exact ⟨by simp [ht], hRest⟩
  · exact Nat.lt_of_le_of_lt (Nat.sub_le _ _) (hTimer hp)

/-- In the phases that drive a nibble: EN is high in `ENHI` only, no second nibble follows a single one, the timer is below the
dwell; the rest is kept from any phase but `WAIT`. -/
theorem Regs.Inv.nibble (h : r.Inv p) (hw : r.ph ≠ .wait) {ph : Phase} {en half : Bool} {db : Nibble} {tmr : Nat}
    (hph : ph = .db ∨ ph = .enlo ∨ ph = .enhi ∨ ph = .settle) (hen : en = true ↔ ph = .enhi)
    (hhalf : half = true → r.single = false) (htmr : tmr < Regs.dwell p { r with ph := ph }) :
    Regs.Inv p { r with ph := ph, en := en, half := half, db := db, tmr := tmr } where
  r29 := {
    a := by rintro rfl; simp at hph
    b := fun _ => ⟨by rintro rfl; simp at hph, r.codes_in_range.2⟩
    c := hen
    d := ⟨by rintro rfl; simp at hph, fun hi => absurd (h.r29.d.2 hi) hw⟩
    e := fun _ => by obtain rfl | rfl | rfl | rfl := hph <;> simp
    f := Regs.codes_in_range _
    g := h.r29.g }
  outside := h.outside
  pairs := hhalf
  timer := fun _ => htmr

/-- The start of an initializer step other than 0. -/
theorem Regs.Inv.startStep (h : r.Inv p) (hp : r.ph ≠ .enhi) (hi : r.inInit = true) {k : Fin 9} (hk : k ≠ 0) :
    (r.startStep p k).Inv p :=
  Regs.inv_of_rs rfl rfl rfl (h.en_eq_false hp) (by simp [hi, hk]) h.r29.g

theorem Regs.Inv.settleEnd (h : r.Inv p) (hp : r.ph = .settle) (ht : r.tmr = 0) : (r.settleEnd p).Inv p := by
  have hen : r.en = false := h.en_eq_false (by simp [hp])
  obtain ⟨-, hs, hEnd⟩ | ⟨-, -, -, hEnd⟩ | ⟨-, hi, hk, hEnd⟩ | ⟨-, hi, hEnd⟩ := r.settleEnd_cases p <;> rw [hEnd]
  · exact h.nibble (by simp [hp]) (.inl rfl) (by simp [hen]) (fun _ => hs) Nat.one_pos
  · exact Regs.inv_of_idle rfl ht rfl rfl hen
  · exact h.startStep (by simp [hp]) hi (istep_succ_ne_zero hk)
  · exact Regs.inv_of_idle rfl ht hi (h.outside hi) hen

theorem Regs.Inv.phaseEnd (h : r.Inv p) (ht : r.tmr = 0) : (r.phaseEnd p).Inv p := by
  cases hp : r.ph with
  | idle => simpa [Regs.phaseEnd, hp] using h
  | wait =>
    obtain ⟨hi, -⟩ := h.r29.d.1 hp
    rw [r.phaseEnd_wait p hp]
    exact h.startStep (by simp [hp]) hi (by decide)
  | rs =>
    have hen := h.en_eq_false (by simp [hp])
    rw [r.phaseEnd_rs p hp]
    exact h.nibble (by simp [hp]) (.inl rfl) (by simp [hen]) h.pairs Nat.one_pos
  | db =>
    rw [r.phaseEnd_db p hp]
    exact h.nibble (by simp [hp]) (by decide) (by decide) h.pairs (Nat.sub_lt p.nEnLow_pos Nat.one_pos)
  | enlo =>
    rw [r.phaseEnd_enlo p hp]
    exact h.nibble (by simp [hp]) (by decide) (by decide) h.pairs (Nat.sub_lt p.nEnHigh_pos Nat.one_pos)
  | enhi =>
    rw [r.phaseEnd_enhi p hp]
    exact h.nibble (by simp [hp]) (by decide) (by decide) h.pairs
      (Nat.sub_lt (Nat.add_pos_left p.nSettle_pos _) Nat.one_pos)
  | settle =>
    rw [r.phaseEnd_settle p hp]
    exact h.settleEnd hp ht

end

theorem State.after_inv (s : State) (h : s.Inv) : s.after.Inv := by
  rw [State.Inv, s.after_params]
  exact s.after_regs_cases Regs.inv_reset h h.accept h.dwell h.phaseEnd

/-- Settles O27: each of the cases of an edge keeps the invariant of the registers. -/
theorem everyStepKeepsTheInvariant : Obligations.EveryStepKeepsTheInvariant := by
  intro s t h ht
  rw [step_next_iff] at ht
  exact ht ▸ s.after_inv h

/-! ## What a transfer carries (R15, R33, R60, R74) -/

section
variable {p : Params} {r : Regs}

/-- Where no nibble is driven and no INIT is in flight, nothing is carried. -/
theorem Regs.carries_of_outside (hp : r.ph = .idle ∨ r.ph = .rs) (hi : r.inInit = false) : r.Carries p where
  data := by obtain h | h := hp <;> simp [h]
  select := by simp [hi]
  table := by simp [hi]

theorem Regs.carries_reset : Regs.reset.Carries p := Regs.carries_of_outside (.inl rfl) rfl

theorem Regs.Inv.accept_carries (h : r.Inv p) (hp : r.ph = .idle) (i : Instr) : (r.accept p i).Carries p := by
  obtain ⟨-, hi, -⟩ := h.r29.a hp
  cases i with
  | sendCmd v => exact Regs.carries_of_outside (.inr rfl) hi
  | sendChr v => exact Regs.carries_of_outside (.inr rfl) hi
  | init => exact ⟨by simp [Regs.accept], by simp [Regs.accept], by simp [Regs.accept]⟩

/-- The start of an initializer step other than 0 loads its table row. -/
theorem Regs.startStep_carries {k : Fin 9} (hk : k ≠ 0) : (r.startStep p k).Carries p where
  data := by simp
  select := fun _ _ => rfl
  table := fun _ _ => stepByte_of_ne_zero p hk r.val

/-- A phase that drives the nibble of `half` carries it on. -/
theorem Regs.Carries.nibble (h : r.Carries p) (hw : r.ph ≠ .wait) {ph : Phase} {en half : Bool} {db : Nibble} {tmr : Nat}
    (hdb : db = if half then loNibble r.val else hiNibble r.val) :
    Regs.Carries p { r with ph := ph, en := en, half := half, db := db, tmr := tmr } :=
  ⟨fun _ => hdb, fun hi _ => h.select hi hw, h.table⟩

theorem Regs.Carries.settleEnd (h : r.Carries p) (hp : r.ph = .settle) : (r.settleEnd p).Carries p := by
  obtain ⟨-, -, hEnd⟩ | ⟨-, -, -, hEnd⟩ | ⟨-, -, hk, hEnd⟩ | ⟨-, hi, hEnd⟩ := r.settleEnd_cases p <;> rw [hEnd]
  · exact h.nibble (by simp [hp]) rfl
  · exact Regs.carries_of_outside (.inl rfl) rfl
  · exact Regs.startStep_carries (istep_succ_ne_zero hk)
  · exact Regs.carries_of_outside (.inl rfl) hi

theorem Regs.Carries.phaseEnd (h : r.Carries p) (hInv : r.Inv p) : (r.phaseEnd p).Carries p := by
  cases hp : r.ph with
  | idle => simpa [Regs.phaseEnd, hp] using h
  | wait =>
    rw [r.phaseEnd_wait p hp]
    exact Regs.startStep_carries (by decide)
  | rs =>
    rw [r.phaseEnd_rs p hp]
    exact h.nibble (by simp [hp]) (by simp [hInv.half_eq_false hp])
  | db | enlo | enhi =>
    simp only [Regs.phaseEnd, hp]
    exact h.nibble (by simp [hp]) (h.data (by simp [hp]))
  | settle =>
    rw [r.phaseEnd_settle p hp]
    exact h.settleEnd hp

end

/-- Settles O28: the invariant says that a transfer begins outside an INIT or in its table, with the high nibble. -/
theorem everyStepKeepsWhatATransferCarries : Obligations.EveryStepKeepsWhatATransferCarries := by
  intro s t hInv h ht
  rw [step_next_iff] at ht
  rw [ht, s.after_params]
  exact s.after_regs_cases Regs.carries_reset h hInv.accept_carries ⟨h.data, h.select, h.table⟩ fun _ => h.phaseEnd hInv

/-! ## Reachable states -/

/-- Settles O26: no request is in flight. -/
theorem invariantsHoldAtReset : Obligations.InvariantsHoldAtReset :=
  fun _ _ => ⟨Regs.inv_reset, Regs.carries_reset⟩

/-- What holds at reset and is kept by every edge holds of every reachable state. -/
theorem Reachable.induction {P : State → Prop} (start : ∀ p inputs, P (State.start p inputs)) (after : ∀ s, P s → P s.after)
    {s : State} (h : Reachable s) : P s := by
  obtain ⟨p, inputs, n, hRun⟩ := h
  rw [runs_iff] at hRun
  subst hRun
  exact Function.Iterate.rec P (start p inputs) after n

/-- Settles O29: a reachable state has the invariant, of which R29 is a part. -/
theorem reachableStatesSatisfyR29 : Obligations.ReachableStatesSatisfyR29 := by
  intro s h
  have hInv : s.Inv := h.induction (fun _ _ => Regs.inv_reset) State.after_inv
  exact hInv.r29

/-! ## The dwell timer (R18) -/

section
variable (p : Params) (r : Regs)

/-- The end of a phase is the start of another. -/
theorem Regs.phaseEnd_ph_ne (hp : r.ph ≠ .idle) : (r.phaseEnd p).ph ≠ r.ph := by
  cases h : r.ph with
  | idle => exact absurd h hp
  | settle =>
    rw [r.phaseEnd_settle p h]
    obtain ⟨-, -, hEnd⟩ | ⟨-, -, -, hEnd⟩ | ⟨-, -, -, hEnd⟩ | ⟨-, -, hEnd⟩ := r.settleEnd_cases p <;> simp [hEnd]
  | wait | rs | db | enlo | enhi => simp [Regs.phaseEnd, h]

/-- A phase that follows another is entered with its dwell less one; `IDLE`, of dwell 0, with 0. -/
theorem Regs.phaseEnd_tmr (hp : r.ph ≠ .idle) (ht : r.tmr = 0) : (r.phaseEnd p).tmr = (r.phaseEnd p).dwell p - 1 := by
  cases h : r.ph with
  | idle => exact absurd h hp
  | settle =>
    rw [r.phaseEnd_settle p h]
    obtain ⟨-, -, hEnd⟩ | ⟨-, -, -, hEnd⟩ | ⟨-, -, -, hEnd⟩ | ⟨-, -, hEnd⟩ := r.settleEnd_cases p <;>
      simp [hEnd, Regs.dwell, ht]
  | wait | rs | db | enlo | enhi =>
    simp only [Regs.phaseEnd, h]
    rfl

theorem Regs.accept_tmr (i : Instr) : (r.accept p i).tmr = (r.accept p i).dwell p - 1 := by
  cases i <;> rfl

end

/-- R18, the count: a dwell in progress takes one from the timer and the input from the list, and does nothing else. -/
theorem State.after_dwell (s : State) (hr : s.ports.rst = false) (hp : s.regs.ph ≠ .idle) (ht : s.regs.tmr ≠ 0) :
    s.after = { s.consumeInput with regs := { s.regs with tmr := s.regs.tmr - 1 } } := by
  rw [s.after_busy hr hp, s.regs.advance_dwell _ hp ht]
  exact State.commit_of_not_fall s.consumeInput _ id

/-- The phase end of a state whose dwell is over. -/
theorem State.after_phaseEnd (s : State) (hr : s.ports.rst = false) (hp : s.regs.ph ≠ .idle) (ht : s.regs.tmr = 0) :
    s.after.regs = s.regs.phaseEnd s.params := by
  rw [s.after_busy hr hp, s.regs.advance_end _ hp ht]
  rfl

/-- R18, the load: an edge without reset that changes the phase loads the timer. -/
theorem State.after_tmr_of_ph_ne (s : State) (hr : s.ports.rst = false) (hne : s.after.regs.ph ≠ s.regs.ph) :
    s.after.regs.tmr = s.after.regs.dwell s.params - 1 := by
  obtain ⟨-, -, h⟩ | ⟨-, -, h⟩ | ⟨-, -, h⟩ | ⟨hp, ht, h⟩ := s.after_cases hr <;> rw [h] at hne ⊢
  · exact absurd rfl hne
  · exact s.regs.accept_tmr s.params _
  · exact absurd rfl hne
  · exact s.regs.phaseEnd_tmr s.params hp ht

/-- Settles O18; that the timer is 0 in `IDLE` is R29 (a) of the next state. -/
theorem dwellTimerCounts : Obligations.DwellTimerCounts := by
  intro s t hInv hr ht
  rw [step_next_iff] at ht
  subst ht
  refine ⟨fun hp ht => ?_, fun hp ht => ?_, s.after_tmr_of_ph_ne hr, fun hp => ?_, fun _ => rfl⟩
  · rw [s.after_dwell hr hp ht]
    rfl
  · rw [s.after_phaseEnd hr hp ht]
    exact s.regs.phaseEnd_ph_ne s.params hp
  · exact ((s.after_inv hInv).r29.a hp).1

/-! ## The order of the initializer's steps (R19, R74) -/

section
variable {p : Params} {r : Regs}

/-- An INIT is accepted in `IDLE`, where `istep` is 0 already. -/
theorem Regs.Inv.accept_istep (h : r.Inv p) (hp : r.ph = .idle) (i : Instr) : (r.accept p i).istep = r.istep := by
  obtain ⟨-, -, hk, -⟩ := h.r29.a hp
  cases i with
  | sendCmd v | sendChr v => rfl
  | init => exact hk.symm

/-- The end of a phase that changes `istep` starts the next step, or ends the last one. -/
theorem Regs.Inv.phaseEnd_istep (h : r.Inv p) (hne : (r.phaseEnd p).istep ≠ r.istep) :
    (r.inInit = true ∧ r.istep ≠ 8 ∧ r.phaseEnd p = r.startStep p (r.istep + 1)) ∨
    (r.istep = 8 ∧ r.phaseEnd p = { r with inInit := false, initDone := true, istep := 0, ph := .idle }) := by
  cases hp : r.ph with
  | idle | rs | db | enlo | enhi => simp [Regs.phaseEnd, hp] at hne
  | wait =>
    obtain ⟨hi, hk⟩ := h.r29.d.1 hp
    exact .inl ⟨hi, by simp [hk], by rw [r.phaseEnd_wait p hp, hk]; rfl⟩
  | settle =>
    rw [r.phaseEnd_settle p hp] at hne ⊢
    obtain ⟨-, -, hEnd⟩ | ⟨-, -, hk, hEnd⟩ | ⟨-, hi, hk, hEnd⟩ | ⟨-, -, hEnd⟩ := r.settleEnd_cases p
    · simp [hEnd] at hne
    · exact .inr ⟨hk, hEnd⟩
    · exact .inl ⟨hi, hk, hEnd⟩
    · simp [hEnd] at hne

end

/-- Settles O20: only the end of a phase changes `istep`. -/
theorem initStepsInOrder : Obligations.InitStepsInOrder := by
  intro s t hInv hr ht hne
  rw [step_next_iff] at ht
  subst ht
  obtain ⟨-, -, h⟩ | ⟨hp, -, h⟩ | ⟨-, -, h⟩ | ⟨-, -, h⟩ := s.after_cases hr <;> rw [h] at hne ⊢
  · exact absurd rfl hne
  · exact absurd (hInv.accept_istep hp _) hne
  · exact absurd rfl hne
  · rw [State.commit_regs] at hne ⊢
    obtain ⟨hi, hk, hEnd⟩ | ⟨hk, hEnd⟩ := hInv.phaseEnd_istep hne <;> rw [hEnd]
    · exact .inl ⟨Fin.lt_last_iff_ne_last.2 hk, istep_succ_val hk, stepByte_of_ne_zero s.params (istep_succ_ne_zero hk) _,
        rfl, rfl, rfl, hi, rfl, rfl⟩
    · exact .inr ⟨hk, rfl, rfl, rfl, rfl, rfl⟩

/-! ## The lines change only by the writes (R14, R57, R62) -/

section
variable (p : Params) (r : Regs)

theorem Regs.accept_lines (i : Instr) : (r.accept p i).lines = r.lines.writes (acceptWrites i) := by
  cases i <;> rfl

theorem Regs.phaseEnd_lines : (r.phaseEnd p).lines = r.lines.writes r.phaseEndWrites := by
  cases hp : r.ph with
  | idle | wait | rs | db | enlo | enhi =>
    simp only [Regs.phaseEnd, Regs.phaseEndWrites, hp]
    rfl
  | settle =>
    simp only [r.phaseEnd_settle p hp, Regs.phaseEndWrites, hp]
    obtain ⟨hh, hs, hEnd⟩ | ⟨hl, hi, hk, hEnd⟩ | ⟨hl, hi, hk, hEnd⟩ | ⟨hh, hi, hEnd⟩ := r.settleEnd_cases p <;> rw [hEnd]
    · simp [hh, hs, Regs.lines, Lines.write]
    · obtain hl | hl := hl <;> simp [hl, hi, hk, Regs.lines]
    · obtain hl | hl := hl <;> simp [hl, hi, hk, Regs.lines, Lines.write]
    · simp [hh, hi, Regs.lines]

end

/-- Settles O23: each case of an edge makes the writes listed for it. -/
theorem linesChangeOnlyByTheWrites : Obligations.LinesChangeOnlyByTheWrites := by
  intro s t ht
  rw [step_next_iff] at ht
  subst ht
  cases hr : s.ports.rst with
  | true =>
    rw [s.after_reset hr, State.lineWrites, hr]
    rfl
  | false =>
    obtain ⟨hp, hv, h⟩ | ⟨hp, hv, h⟩ | ⟨hp, ht, h⟩ | ⟨hp, ht, h⟩ := s.after_cases hr <;> rw [h]
    · simp [State.lineWrites, hr, hp, hv]
    · simpa [State.lineWrites, hr, hp, hv] using s.regs.accept_lines s.params _
    · simp [State.lineWrites, hr, hp, ht, Regs.lines]
    · simpa [State.lineWrites, hr, hp, ht] using s.regs.phaseEnd_lines s.params

/-! ## The flags (R25) -/

/-- What the end of a phase makes of the flags. -/
theorem Regs.phaseEnd_flags (p : Params) (r : Regs) (hIdle : r.ph ≠ .idle) :
    ((r.phaseEnd p).half = true ↔
      (r.ph = .settle ∧ r.half = false ∧ r.single = false) ∨
      (r.half = true ∧
        ¬ (r.ph = .wait ∨ (r.ph = .settle ∧ (r.half = true ∨ r.single = true) ∧ r.inInit = true ∧ r.istep ≠ 8)))) ∧
    ((r.phaseEnd p).inInit = true ↔
      r.inInit = true ∧ ¬ (r.ph = .settle ∧ (r.half = true ∨ r.single = true) ∧ r.inInit = true ∧ r.istep = 8)) ∧
    ((r.phaseEnd p).initDone = true ↔
      (r.ph = .settle ∧ (r.half = true ∨ r.single = true) ∧ r.inInit = true ∧ r.istep = 8) ∨ r.initDone = true) ∧
    ((r.phaseEnd p).busy = true ↔
      ¬ (r.ph = .settle ∧ (r.half = true ∨ r.single = true) ∧ (r.inInit = false ∨ r.istep = 8))) := by
  cases hp : r.ph with
  | idle => exact absurd hp hIdle
  | wait | rs | db | enlo | enhi => simp [Regs.phaseEnd, hp, Regs.busy]
  | settle =>
    rw [r.phaseEnd_settle p hp]
    obtain ⟨hh, hs, hEnd⟩ | ⟨hl, hi, hk, hEnd⟩ | ⟨hl, hi, hk, hEnd⟩ | ⟨hh, hi, hEnd⟩ := r.settleEnd_cases p
    · simp [hEnd, hh, hs, Regs.busy]
    · obtain hl | hl := hl <;> simp [hEnd, hl, hi, hk, Regs.busy]
    · obtain hl | hl := hl <;> simp [hEnd, hl, hi, hk, Regs.busy]
    · simp [hEnd, hh, hi, Regs.busy]

theorem State.accepts_of_busy (s : State) (hp : s.regs.ph ≠ .idle) : s.accepts = none := by simp [State.accepts, hp]

theorem State.accepts_of_quiet (s : State) (hv : s.ports.reqValid = false) : s.accepts = none := by
  simp [State.accepts, hv]

theorem State.accepts_of_offer (s : State) (hr : s.ports.rst = false) (hp : s.regs.ph = .idle)
    (hv : s.ports.reqValid = true) : s.accepts = some (decode s.ports.reqWord) := by
  simp [State.accepts, hr, hp, hv]

/-- Settles O21, by the cases of an edge: only an acceptance and the end of a phase change a flag. -/
theorem flagsChangeOnlyAsListed : Obligations.FlagsChangeOnlyAsListed := by
  intro s t ht
  rw [step_next_iff] at ht
  subst ht
  dsimp only
  refine ⟨fun hr => ?_, fun hr => ?_⟩
  · rw [s.after_reset hr]
    exact ⟨rfl, rfl, rfl, rfl⟩
  obtain ⟨hp, hv, h⟩ | ⟨hp, hv, h⟩ | ⟨hp, ht, h⟩ | ⟨hp, ht, h⟩ := s.after_cases hr <;> rw [h]
  · simp [s.accepts_of_quiet hv, hp]
  · rw [s.accepts_of_offer hr hp hv]
    cases decode s.ports.reqWord <;> simp [hp, Regs.accept, Regs.busy]
  · simp [s.accepts_of_busy hp, ht, Regs.busy]
  · simpa [s.accepts_of_busy hp, ht, hp, Regs.busy] using s.regs.phaseEnd_flags s.params hp

/-! ## `init_done` is not read (R21, R110) -/

/-- The registers with `init_done` at a given value. -/
def Regs.withInitDone (b : Bool) (r : Regs) : Regs := { r with initDone := b }

section
variable (p : Params) (b c : Bool) (r : Regs)

@[simp] theorem Regs.withInitDone_ph : (r.withInitDone b).ph = r.ph := rfl

theorem Regs.accept_withInitDone (i : Instr) :
    ((r.withInitDone b).accept p i).withInitDone c = (r.accept p i).withInitDone c := by
  cases i <;> rfl

theorem Regs.settleEnd_withInitDone : ((r.withInitDone b).settleEnd p).withInitDone c = (r.settleEnd p).withInitDone c := by
  simp only [Regs.settleEnd, apply_ite (Regs.withInitDone c)]
  rfl

theorem Regs.phaseEnd_withInitDone : ((r.withInitDone b).phaseEnd p).withInitDone c = (r.phaseEnd p).withInitDone c := by
  cases hp : r.ph with
  | settle =>
    rw [r.phaseEnd_settle p hp, (r.withInitDone b).phaseEnd_settle p hp]
    exact r.settleEnd_withInitDone p b c
  | idle | wait | rs | db | enlo | enhi =>
    simp only [Regs.phaseEnd, Regs.withInitDone_ph, hp]
    rfl

theorem Regs.advance_withInitDone : ((r.withInitDone b).advance p).withInitDone c = (r.advance p).withInitDone c := by
  simp only [Regs.advance, apply_ite (Regs.withInitDone c), Regs.phaseEnd_withInitDone]
  rfl

end

/-- The state with `init_done` at a given value. -/
def State.withInitDone (b : Bool) (s : State) : State := { s with regs := s.regs.withInitDone b }

/-- Whatever `init_done` is before an edge, the states after it are one, but for `init_done`. -/
theorem State.after_withInitDone (b c : Bool) (s : State) :
    (s.withInitDone b).after.withInitDone c = s.after.withInitDone c := by
  obtain hr | ⟨hr, hp, hv⟩ | ⟨hr, hp, hv⟩ | ⟨hr, hp⟩ := s.edge_cases
  · rw [s.after_reset hr, (s.withInitDone b).after_reset hr]
    rfl
  · rw [s.after_accept hr hp hv, (s.withInitDone b).after_accept hr hp hv]
    exact congrArg (fun r => { s.consumeInput with regs := r }) (s.regs.accept_withInitDone s.params b c _)
  · rw [s.after_quiet hr hp hv, (s.withInitDone b).after_quiet hr hp hv]
    rfl
  · rw [s.after_busy hr hp, (s.withInitDone b).after_busy hr hp]
    exact congrArg s.consumeInput.commit (s.regs.advance_withInitDone s.params b c)

/-- Settles O32: with the `init_done` of the one put into both, the two states after the edge are equal. -/
theorem initDoneIsNotRead : Obligations.InitDoneIsNotRead := by
  intro s t u b ht hu
  rw [step_next_iff] at ht hu
  subst ht hu
  exact s.after_withInitDone b (s.withInitDone b).after.regs.initDone

/-! ## The ghost history and the count of free values are not read (R24, R97) -/

/-- The state with another history and another count of free values. -/
def State.withGhosts (latched : List Latch) (k : Nat) (s : State) : State := { s with latched := latched, freeCount := k }

/-- Whatever the ghosts are before an edge, the states after it are one, but for the ghosts. -/
theorem State.after_withGhosts (latched latched' : List Latch) (k k' : Nat) (s : State) :
    (s.withGhosts latched k).after.withGhosts latched' k' = s.after.withGhosts latched' k' := by
  obtain hr | ⟨hr, hp, hv⟩ | ⟨hr, hp, hv⟩ | ⟨hr, hp⟩ := s.edge_cases
  · rw [s.after_reset hr, (s.withGhosts latched k).after_reset hr]
    rfl
  · rw [s.after_accept hr hp hv, (s.withGhosts latched k).after_accept hr hp hv]
    rfl
  · rw [s.after_quiet hr hp hv, (s.withGhosts latched k).after_quiet hr hp hv]
    rfl
  · rw [s.after_busy hr hp, (s.withGhosts latched k).after_busy hr hp]
    rfl

/-- Settles O31: with the ghosts of the one put into both, the two states after the edge are equal. -/
theorem ghostsAreNotRead : Obligations.GhostsAreNotRead := by
  intro s t u latched k ht hu
  rw [step_next_iff] at ht hu
  subst ht hu
  exact ⟨s.after_params, s.after_withGhosts latched _ k _⟩

end Sys2Proof.Machine
end

section
/-! SUPPORT. The writes to the LCD controller (20_memory.md): which bit of a byte is on which line (R34), when the controller
latches (R40), that a request in flight ends (R43), and that requests are performed whole and in order (R39, R41, R96). -/

namespace Sys2Proof

/-- Decoding the word of a request gives the request back (R45, R46). -/
@[simp] theorem decode_encode (i : Instr) : decode (encode i) = i := by
  cases i with
  | sendCmd v | sendChr v =>
    revert v
    decide
  | init => rfl

end Sys2Proof

namespace Sys2Proof.Machine

/-! ## The bits on the lines (R34) -/

/-- Settles O22: bit `i` of a nibble is bit `4 + i` or bit `i` of the byte it is cut from. -/
theorem nibbleBitsOnTheLines : Obligations.NibbleBitsOnTheLines := by
  intro r v
  refine ⟨fun h => ?_, fun h => ?_⟩
  · simp [Regs.level, h, hiNibble]
  · simp [Regs.level, h, loNibble]

/-- A single nibble stands in the high half of its byte (R53). -/
@[simp] theorem hiNibble_append (n m : Nibble) : hiNibble (n ++ m) = n := by
  rw [hiNibble, BitVec.extractLsb'_append_eq_left]

/-! ## When the controller latches (R40, R70) -/

/-- What the controller latches at an edge without reset: the pair on the lines at the end of `ENHI`, else nothing. -/
def Regs.edgeLatch (r : Regs) : Option Latch := if r.ph = .enhi ∧ r.tmr = 0 then some ⟨r.rs, r.db⟩ else none

theorem Regs.edgeLatch_of_end {r : Regs} (hp : r.ph = .enhi) (ht : r.tmr = 0) : r.edgeLatch = some ⟨r.rs, r.db⟩ := by
  simp [Regs.edgeLatch, hp, ht]

theorem Regs.edgeLatch_of_ph_ne {r : Regs} (hp : r.ph ≠ .enhi) : r.edgeLatch = none := by simp [Regs.edgeLatch, hp]

theorem Regs.edgeLatch_of_tmr_ne {r : Regs} (ht : r.tmr ≠ 0) : r.edgeLatch = none := by simp [Regs.edgeLatch, ht]

theorem Regs.accept_en (p : Params) (r : Regs) (i : Instr) : (r.accept p i).en = r.en := by
  cases i <;> rfl

/-- The end of a phase that changes EN leaves the other lines alone. -/
theorem Regs.phaseEnd_rs_db_of_en_ne (p : Params) (r : Regs) (hne : (r.phaseEnd p).en ≠ r.en) :
    (r.phaseEnd p).rs = r.rs ∧ (r.phaseEnd p).db = r.db := by
  cases hp : r.ph with
  | idle | wait | rs => simp [Regs.phaseEnd, hp] at hne
  | db | enlo | enhi => simp [Regs.phaseEnd, hp]
  | settle =>
    rw [r.phaseEnd_settle p hp] at hne
    obtain ⟨-, -, hEnd⟩ | ⟨-, -, -, hEnd⟩ | ⟨-, -, -, hEnd⟩ | ⟨-, -, hEnd⟩ := r.settleEnd_cases p <;> simp [hEnd] at hne

/-- EN falls at the end of `ENHI` only. -/
theorem Regs.Inv.en_falls_iff {p : Params} {r : Regs} (h : r.Inv p) :
    r.en = true ∧ (r.phaseEnd p).en = false ↔ r.ph = .enhi := by
  refine ⟨fun ⟨he, _⟩ => h.r29.c.1 he, fun hp => ⟨h.r29.c.2 hp, ?_⟩⟩
  rw [r.phaseEnd_enhi p hp]

/-- R70: what an edge without reset adds to `Latched`. -/
theorem State.after_latched (s : State) (h : s.Inv) (hr : s.ports.rst = false) :
    s.after.latched = s.latched ++ s.regs.edgeLatch.toList := by
  obtain ⟨hp, -, hAfter⟩ | ⟨hp, -, hAfter⟩ | ⟨-, ht, hAfter⟩ | ⟨-, ht, hAfter⟩ := s.after_cases hr <;> rw [hAfter]
  · simp [Regs.edgeLatch_of_ph_ne, hp]
  · simp [Regs.edgeLatch_of_ph_ne, hp]
  · simp [Regs.edgeLatch_of_tmr_ne ht]
  · simp only [State.commit_latched, State.consumeInput_regs, State.consumeInput_latched, h.en_falls_iff]
    split
    · next hp => rw [Regs.edgeLatch_of_end hp ht, s.regs.phaseEnd_enhi _ hp]; rfl
    · next hp => simp [Regs.edgeLatch_of_ph_ne hp]

theorem State.after_freeCount (s : State) (hr : s.ports.rst = false) : s.after.freeCount = s.freeCount := by
  obtain ⟨-, -, h⟩ | ⟨-, -, h⟩ | ⟨-, -, h⟩ | ⟨-, -, h⟩ := s.after_cases hr <;> rw [h] <;> rfl

/-- Settles O24: of the cases of an edge only the end of a phase changes EN. -/
theorem latchedGrowsOnlyAtTheEndOfEnhi : Obligations.LatchedGrowsOnlyAtTheEndOfEnhi := by
  intro s t hInv hr ht
  rw [step_next_iff] at ht
  subst ht
  refine ⟨fun hne => ?_, ?_, s.after_freeCount hr⟩
  · obtain ⟨-, -, h⟩ | ⟨-, -, h⟩ | ⟨-, -, h⟩ | ⟨-, -, h⟩ := s.after_cases hr <;> rw [h] at hne ⊢
    · exact absurd rfl hne
    · exact absurd (s.regs.accept_en _ _) hne
    · exact absurd rfl hne
    · exact s.regs.phaseEnd_rs_db_of_en_ne _ hne
  · rw [s.after_latched hInv hr, Regs.edgeLatch, apply_ite Option.toList]
    rfl

/-! ## The course of the request in flight: one entry per edge, what the edge latches

Its length is the time to `IDLE`, its `reduceOption` what `Latched` still gains. -/

/-- The edges of a phase of dwell `n`, the last of which latches `l`. -/
def dwellEdges (n : Nat) (l : Option Latch) : List (Option Latch) := List.replicate (n - 1) none ++ [l]

/-- The edges of a phase (R17); `l` is the pair latched in the nibble period it belongs to, whose settle is lengthened by
`g`. -/
def phaseEdges (p : Params) (g : Nat) (l : Latch) : Phase → List (Option Latch)
  | .idle => []
  | .wait => dwellEdges p.nPowerup none
  | .rs | .db => dwellEdges 1 none
  | .enlo => dwellEdges p.nEnLow none
  | .enhi => dwellEdges p.nEnHigh (some l)
  | .settle => dwellEdges (p.nSettle + g) none

/-- The edges of a nibble period (R65). -/
def nibbleEdges (p : Params) (g : Nat) (l : Latch) : List (Option Latch) :=
  [Phase.db, .enlo, .enhi, .settle].flatMap (phaseEdges p g l)

/-- The edges of a transfer (R65, R76): the `RS` cycle, the high nibble, and the low one if it is no single nibble. -/
def transferEdges (p : Params) (g : Nat) (single rs : Bool) (v : Byte) : List (Option Latch) :=
  dwellEdges 1 none ++ nibbleEdges p g ⟨rs, hiNibble v⟩ ++ if single then [] else nibbleEdges p g ⟨rs, loNibble v⟩

/-- The edges of an initializer step (R74, R76). -/
def stepEdges (p : Params) (k : Fin 9) : List (Option Latch) :=
  match stepByte p k with
  | none => dwellEdges p.nPowerup none
  | some b => transferEdges p (stepGuard p k) (stepSingle k) false b

/-- The initializer steps after `k`, in order. -/
def laterSteps (k : Fin 9) : List (Fin 9) := (List.finRange 9).filter (k < ·)

/-- The edges of the low nibble, if it is still to come. -/
def Regs.secondNibble (p : Params) (r : Regs) : List (Option Latch) :=
  if r.half = false ∧ r.single = false then nibbleEdges p (r.guard p) ⟨r.rs, loNibble r.val⟩ else []

/-- The edges of the steps of an INIT in flight after the one in progress. -/
def Regs.nextSteps (p : Params) (r : Regs) : List (Option Latch) :=
  if r.inInit then (laterSteps r.istep).flatMap (stepEdges p) else []

/-- The edges of a transfer in progress from the end of its phase on, this edge left out. -/
def Regs.restOfTransfer (p : Params) (r : Regs) : List (Option Latch) :=
  match r.ph with
  | .idle | .wait => []
  | .rs => nibbleEdges p (r.guard p) ⟨r.rs, hiNibble r.val⟩ ++ r.secondNibble p
  | .db => [Phase.enlo, .enhi, .settle].flatMap (phaseEdges p (r.guard p) ⟨r.rs, r.db⟩) ++ r.secondNibble p
  | .enlo => [Phase.enhi, .settle].flatMap (phaseEdges p (r.guard p) ⟨r.rs, r.db⟩) ++ r.secondNibble p
  | .enhi => [Phase.settle].flatMap (phaseEdges p (r.guard p) ⟨r.rs, r.db⟩) ++ r.secondNibble p
  | .settle => r.secondNibble p

/-- The edges until `IDLE` is reached if no reset comes: of the phase in progress, of its transfer, of the later steps. -/
def Regs.course (p : Params) (r : Regs) : List (Option Latch) :=
  if r.ph = .idle then []
  else dwellEdges (r.tmr + 1) (if r.ph = .enhi then some ⟨r.rs, r.db⟩ else none) ++ r.restOfTransfer p ++ r.nextSteps p

section
variable {p : Params} {r : Regs}

theorem dwellEdges_one (l : Option Latch) : dwellEdges 1 l = [l] := rfl

theorem laterSteps_succ {k : Fin 9} (hk : k ≠ 8) : laterSteps k = (k + 1) :: laterSteps (k + 1) := by
  revert k; decide

theorem stepEdges_of_ne_zero {k : Fin 9} (hk : k ≠ 0) (v : Byte) :
    stepEdges p k = transferEdges p (stepGuard p k) (stepSingle k) false ((stepByte p k).getD v) := by
  rw [stepEdges, stepByte_of_ne_zero p hk v]
  rfl

theorem Regs.course_idle (hp : r.ph = .idle) : r.course p = [] := by simp [Regs.course, hp]

/-- The course is over in `IDLE` only. -/
theorem Regs.course_eq_nil_iff : r.course p = [] ↔ r.ph = .idle := by
  simp [Regs.course, dwellEdges]

theorem Regs.secondNibble_of_last (hl : r.half = true ∨ r.single = true) : r.secondNibble p = [] := by
  obtain hl | hl := hl <;> simp [Regs.secondNibble, hl]

theorem Regs.nextSteps_of_init (hi : r.inInit = true) : r.nextSteps p = (laterSteps r.istep).flatMap (stepEdges p) :=
  if_pos hi

theorem Regs.nextSteps_of_send (hi : r.inInit = false) : r.nextSteps p = [] := by simp [Regs.nextSteps, hi]

/-- The course from the `RS` cycle of a transfer is the transfer and the initializer steps after it. -/
theorem Regs.course_rs (hp : r.ph = .rs) (ht : r.tmr = 0) (hh : r.half = false) :
    r.course p = transferEdges p (r.guard p) r.single r.rs r.val ++ r.nextSteps p := by
  cases hs : r.single <;>
    simp [Regs.course, hp, ht, hh, hs, transferEdges, Regs.restOfTransfer, Regs.secondNibble]

/-- The course from the start of an initializer step. -/
theorem Regs.startStep_course (hi : r.inInit = true) {k : Fin 9} (hk : k ≠ 8) :
    (r.startStep p (k + 1)).course p = (laterSteps k).flatMap (stepEdges p) := by
  rw [Regs.course_rs rfl rfl rfl, laterSteps_succ hk, List.flatMap_cons, stepEdges_of_ne_zero (istep_succ_ne_zero hk) r.val]
  simp only [Regs.guard, Regs.single, Regs.nextSteps, Regs.startStep_inInit, hi, Bool.true_and, if_true]
  rfl

/-- While the timer runs the course goes on by one edge that latches nothing. -/
theorem Regs.course_dwell (hp : r.ph ≠ .idle) (ht : r.tmr ≠ 0) :
    r.course p = none :: Regs.course p { r with tmr := r.tmr - 1 } := by
  obtain ⟨n, hn⟩ := Nat.exists_eq_succ_of_ne_zero ht
  have hp' : Regs.ph { r with tmr := r.tmr - 1 } ≠ .idle := hp
  rw [Regs.course, Regs.course, if_neg hp, if_neg hp', hn]
  rfl

/-- With the timer run down, the end of the phase is the next edge of the course. -/
theorem Regs.course_end (hp : r.ph ≠ .idle) (ht : r.tmr = 0) :
    r.course p = r.edgeLatch :: (r.restOfTransfer p ++ r.nextSteps p) := by
  simp [Regs.course, hp, ht, dwellEdges_one, Regs.edgeLatch]

/-- The end of `SETTLE` leads to the low nibble, to the next initializer step, or to `IDLE`. -/
theorem Regs.settleEnd_course : (r.settleEnd p).course p = r.secondNibble p ++ r.nextSteps p := by
  obtain ⟨hh, hs, hEnd⟩ | ⟨hl, hi, hk, hEnd⟩ | ⟨hl, hi, hk, hEnd⟩ | ⟨hh, hi, hEnd⟩ := r.settleEnd_cases p <;> rw [hEnd]
  · rw [Regs.secondNibble, if_pos ⟨hh, hs⟩]
    simp only [Regs.course, Regs.restOfTransfer, Regs.secondNibble, nibbleEdges, List.flatMap_cons, List.append_assoc,
      reduceCtorEq, false_and, if_false, List.nil_append]
    rfl
  · have hLast : laterSteps 8 = [] := by decide
    rw [Regs.course_idle rfl, Regs.secondNibble_of_last hl, Regs.nextSteps_of_init hi, hk, hLast, List.flatMap_nil,
      List.append_nil]
  · rw [Regs.startStep_course hi hk, Regs.secondNibble_of_last hl, Regs.nextSteps_of_init hi, List.nil_append]
  · rw [Regs.course_idle rfl, Regs.secondNibble_of_last (.inl hh), Regs.nextSteps_of_send hi, List.append_nil]

/-- The end of a phase leads to the rest of the transfer and the later steps. -/
theorem Regs.Inv.phaseEnd_course (h : r.Inv p) (hp : r.ph ≠ .idle) :
    (r.phaseEnd p).course p = r.restOfTransfer p ++ r.nextSteps p := by
  cases hph : r.ph with
  | idle => exact absurd hph hp
  | wait =>
    obtain ⟨hi, hk⟩ := h.r29.d.1 hph
    have hStart : r.phaseEnd p = r.startStep p (r.istep + 1) := by rw [r.phaseEnd_wait p hph, hk]; rfl
    rw [hStart, Regs.startStep_course hi (by simp [hk]), Regs.restOfTransfer, hph, Regs.nextSteps_of_init hi, List.nil_append]
  | rs | db | enlo | enhi =>
    simp only [Regs.phaseEnd, Regs.course, Regs.restOfTransfer, hph, nibbleEdges, List.flatMap_cons, List.flatMap_nil,
      List.append_nil, List.append_assoc, reduceCtorEq, if_false, if_true]
    rfl
  | settle =>
    rw [r.phaseEnd_settle p hph, Regs.settleEnd_course, Regs.restOfTransfer, hph]

/-- Every edge of a busy block without reset takes the first entry off the course. -/
theorem Regs.Inv.advance_course (h : r.Inv p) (hp : r.ph ≠ .idle) : r.course p = r.edgeLatch :: (r.advance p).course p := by
  by_cases ht : r.tmr = 0
  · rw [r.advance_end p hp ht, h.phaseEnd_course hp, Regs.course_end hp ht]
  · rw [r.advance_dwell p hp ht, Regs.edgeLatch_of_tmr_ne ht, ← Regs.course_dwell hp ht]

/-! ## What a course latches, and its length -/

@[simp] theorem dwellEdges_reduceOption (n : Nat) (l : Option Latch) : (dwellEdges n l).reduceOption = l.toList := by
  cases l <;> simp [dwellEdges, List.reduceOption_append]

@[simp] theorem dwellEdges_length {n : Nat} (hn : 1 ≤ n) (l : Option Latch) : (dwellEdges n l).length = n := by
  simp [dwellEdges, Nat.sub_add_cancel hn]

@[simp] theorem nibbleEdges_reduceOption (g : Nat) (l : Latch) : (nibbleEdges p g l).reduceOption = [l] := by
  simp [nibbleEdges, phaseEdges, List.reduceOption_append]

@[simp] theorem phaseEdges_enlo_length (g : Nat) (l : Latch) : (phaseEdges p g l .enlo).length = p.nEnLow :=
  dwellEdges_length p.nEnLow_pos _

@[simp] theorem phaseEdges_enhi_length (g : Nat) (l : Latch) : (phaseEdges p g l .enhi).length = p.nEnHigh :=
  dwellEdges_length p.nEnHigh_pos _

@[simp] theorem phaseEdges_settle_length (g : Nat) (l : Latch) : (phaseEdges p g l .settle).length = p.nSettle + g :=
  dwellEdges_length (Nat.le_add_right_of_le p.nSettle_pos) _

@[simp] theorem nibbleEdges_length (g : Nat) (l : Latch) : (nibbleEdges p g l).length = nibblePeriod p + g := by
  have hDb : (phaseEdges p g l .db).length = 1 := rfl
  simp [nibbleEdges, nibblePeriod, hDb]
  omega

theorem transferEdges_reduceOption (g : Nat) (single rs : Bool) (v : Byte) :
    (transferEdges p g single rs v).reduceOption =
      ⟨rs, hiNibble v⟩ :: if single then [] else [⟨rs, loNibble v⟩] := by
  cases single <;> simp [transferEdges, List.reduceOption_append]

theorem transferEdges_length (g : Nat) (single rs : Bool) (v : Byte) :
    (transferEdges p g single rs v).length =
      1 + (nibblePeriod p + g) + if single then 0 else nibblePeriod p + g := by
  cases single <;> simp [transferEdges, Nat.add_assoc]

/-- R76: a step of the initializer has the length of its table row. -/
theorem stepEdges_length (k : Fin 9) : (stepEdges p k).length = stepLength p k := by
  revert k
  simp [Fin.forall_fin_succ, stepEdges, stepByte, stepLength, stepKind, transferEdges_length, stepGuard, stepSingle,
    dwellEdges_length p.nPowerup_pos]
  omega

theorem Regs.secondNibble_length_le : (r.secondNibble p).length ≤ if r.single then 0 else nibblePeriod p + r.guard p := by
  cases hs : r.single <;> cases hh : r.half <;> simp [Regs.secondNibble, hs, hh]

/-- What is left of a transfer is no longer than the transfer. -/
theorem Regs.Inv.transfer_left_le (h : r.Inv p) (hp : r.ph ≠ .idle) (hw : r.ph ≠ .wait) :
    r.tmr + 1 + (r.restOfTransfer p).length ≤ (transferEdges p (r.guard p) r.single r.rs r.val).length := by
  have hTimer := h.timer hp
  have hSecond := r.secondNibble_length_le (p := p)
  rw [transferEdges_length]
  cases hph : r.ph with
  | idle => exact absurd hph hp
  | wait => exact absurd hph hw
  | rs | db | enlo | enhi | settle =>
    simp only [Regs.dwell, hph] at hTimer
    simp [Regs.restOfTransfer, hph, nibblePeriod] at hSecond ⊢
    omega

/-- What is left of a step of an INIT is no longer than the step. -/
theorem Regs.Inv.step_left_le (h : r.Inv p) (hi : r.inInit = true) :
    r.tmr + 1 + (r.restOfTransfer p).length ≤ (stepEdges p r.istep).length := by
  obtain ⟨hp, -⟩ := h.r29.b hi
  by_cases hw : r.ph = .wait
  · obtain ⟨-, hk⟩ := h.r29.d.1 hw
    have hTimer := h.timer hp
    rw [Regs.dwell, hw] at hTimer
    rw [stepEdges_length, hk, Regs.restOfTransfer, hw]
    exact hTimer
  · have hk : r.istep ≠ 0 := fun hk => hw (h.r29.d.2 ⟨hi, hk⟩)
    rw [stepEdges_of_ne_zero hk r.val, transferEdges_length]
    simpa [transferEdges_length, Regs.guard, Regs.single, hi] using h.transfer_left_le hp hw

/-- R84: the nine steps together have the length of INIT. -/
theorem allSteps_length : ((List.finRange 9).flatMap (stepEdges p)).length = initCycles p := by
  simp [stepEdges_length, List.finRange_succ, stepLength, stepKind, stepGuard, initCycles]
  omega

/-- A step and those after it are some of the nine. -/
theorem laterSteps_sublist (k : Fin 9) : (k :: laterSteps k).Sublist (List.finRange 9) := by
  revert k; decide

/-- R72, R116: a SEND is shorter than an INIT. -/
theorem sendCycles_le_initCycles : sendCycles p ≤ initCycles p := by
  unfold sendCycles initCycles
  omega

theorem Regs.course_length (hp : r.ph ≠ .idle) :
    (r.course p).length = r.tmr + 1 + (r.restOfTransfer p).length + (r.nextSteps p).length := by
  simp [Regs.course, hp, Nat.add_assoc]

/-- R43, R116: no course is longer than an INIT. -/
theorem Regs.Inv.course_length_le (h : r.Inv p) : (r.course p).length ≤ initCycles p := by
  by_cases hp : r.ph = .idle
  · simp [Regs.course_idle hp]
  rw [Regs.course_length hp]
  cases hi : r.inInit with
  | true =>
    rw [Regs.nextSteps_of_init hi]
    calc r.tmr + 1 + (r.restOfTransfer p).length + ((laterSteps r.istep).flatMap (stepEdges p)).length
      _ ≤ (stepEdges p r.istep).length + ((laterSteps r.istep).flatMap (stepEdges p)).length :=
        Nat.add_le_add_right (h.step_left_le hi) _
      _ = ((r.istep :: laterSteps r.istep).flatMap (stepEdges p)).length := by
        rw [List.flatMap_cons, List.length_append]
      _ ≤ ((List.finRange 9).flatMap (stepEdges p)).length := ((laterSteps_sublist r.istep).flatMap _).length_le
      _ = initCycles p := allSteps_length
  | false =>
    have hw : r.ph ≠ .wait := fun hw => by
      obtain ⟨hi', -⟩ := h.r29.d.1 hw
      simp [hi] at hi'
    have hLeft := h.transfer_left_le hp hw
    have hSend := sendCycles_le_initCycles (p := p)
    simp [transferEdges_length, Regs.single, Regs.guard, hi] at hLeft
    rw [Regs.nextSteps_of_send hi, List.length_nil]
    unfold sendCycles at hSend
    omega

/-! ## From acceptance on -/

/-- The edges of a request after the one that accepts it (R65, R76). -/
def requestEdges (p : Params) : Instr → List (Option Latch)
  | .sendCmd v => transferEdges p 0 false DataMode.command.level v
  | .sendChr v => transferEdges p 0 false DataMode.char.level v
  | .init => (List.finRange 9).flatMap (stepEdges p)

/-- A request takes its length (R72, R84). -/
theorem requestEdges_length (i : Instr) : (requestEdges p i).length = requestCycles p i := by
  cases i with
  | sendCmd v | sendChr v =>
    simp [requestEdges, transferEdges_length, requestCycles, sendCycles]
    omega
  | init => exact allSteps_length

/-- A request latches its contribution (R63, R64, R83). -/
theorem requestEdges_reduceOption (i : Instr) : (requestEdges p i).reduceOption = contribution p i := by
  cases i with
  | sendCmd v | sendChr v => simp [requestEdges, transferEdges_reduceOption, contribution, bytePairs]
  | init =>
    simp [requestEdges, List.finRange_succ, List.reduceOption_append, stepEdges, stepByte, transferEdges_reduceOption,
      stepSingle, stepKind, contribution, bytePairs, DataMode.level]

/-- The course of a request accepted in `IDLE` is the request's. -/
theorem Regs.Inv.accept_course (h : r.Inv p) (hp : r.ph = .idle) (i : Instr) : (r.accept p i).course p = requestEdges p i := by
  obtain ⟨-, hi, -⟩ := h.r29.a hp
  have hSend (m : DataMode) (v : Byte) : (r.acceptSend m v).course p = transferEdges p 0 false m.level v := by
    rw [Regs.course_rs rfl rfl rfl]
    simp [Regs.guard, Regs.single, Regs.nextSteps, hi]
  cases i with
  | sendCmd v => exact hSend .command v
  | sendChr v => exact hSend .char v
  | init =>
    have hSteps : List.finRange 9 = 0 :: laterSteps 0 := by decide
    have hTimer : p.nPowerup - 1 + 1 = p.nPowerup := Nat.sub_add_cancel p.nPowerup_pos
    rw [requestEdges, hSteps, List.flatMap_cons]
    simp [Regs.accept, Regs.course, Regs.restOfTransfer, Regs.nextSteps, stepEdges, hTimer, stepByte]

end

/-! ## The course of a run -/

/-- Every edge of a busy block without reset takes the first entry off the course. -/
theorem State.after_course (s : State) (h : s.Inv) (hr : s.ports.rst = false) (hp : s.regs.ph ≠ .idle) :
    s.regs.course s.params = s.regs.edgeLatch :: s.after.regs.course s.params := by
  rw [s.after_busy hr hp, State.commit_regs]
  exact h.advance_course hp

/-- `n` edges without reset take `n` entries off the course. -/
theorem iterate_after_course (n : Nat) (s : State) (h : s.Inv) (hr : NoResetDuring n s)
    (hn : n ≤ (s.regs.course s.params).length) :
    (State.after^[n] s).regs.course s.params = (s.regs.course s.params).drop n := by
  induction n generalizing s with
  | zero => rfl
  | succ n ih =>
    obtain ⟨hrst, hrest⟩ := (noResetDuring_succ n s).1 hr
    have hp : s.regs.ph ≠ .idle := fun hp => by simp [Regs.course_idle hp] at hn
    have hCourse := s.after_course h hrst hp
    rw [hCourse, List.length_cons, Nat.succ_le_succ_iff, ← s.after_params] at hn
    rw [hCourse, ← s.after_params, List.drop_succ_cons, Function.iterate_succ_apply]
    exact ih s.after (s.after_inv h) hrest hn

/-- When the course is over the block is in `IDLE`. -/
theorem idle_after_course (s : State) (h : s.Inv) (hr : NoResetDuring (s.regs.course s.params).length s) :
    (State.after^[(s.regs.course s.params).length] s).regs.ph = .idle := by
  rw [← Regs.course_eq_nil_iff, iterate_after_course _ s h hr (Nat.le_refl _), List.drop_length]

/-- Settles O39: the course of the request in flight leads to `IDLE`, and no course is longer than an INIT. -/
theorem everyRequestEnds : Obligations.EveryRequestEnds := by
  intro s h hr
  have hLength := h.course_length_le
  exact ⟨_, _, hLength, (runs_iff _ _ _).2 rfl, idle_after_course s h (hr.mono hLength)⟩

/-! ## `Latched` is made of whole contributions in order (R39, R41, R96) -/

/-- What the controller will have latched when the request in flight is over, if no reset comes. -/
def State.promised (s : State) : List Latch := s.latched ++ (s.regs.course s.params).reduceOption

theorem State.promised_idle (s : State) (hp : s.regs.ph = .idle) : s.promised = s.latched := by
  simp [State.promised, Regs.course_idle hp]

/-- An edge without reset promises the contribution of the request it accepts, if it accepts one, and keeps what was
promised. -/
theorem State.after_promised (s : State) (h : s.Inv) (hr : s.ports.rst = false) :
    s.after.promised = s.promised ++ s.accepts.toList.flatMap (contribution s.params) := by
  rw [State.promised, s.after_latched h hr, s.after_params]
  obtain hrst | ⟨-, hp, hv⟩ | ⟨-, hp, hv⟩ | ⟨-, hp⟩ := s.edge_cases
  · simp [hr] at hrst
  · simp [s.promised_idle hp, s.accepts_of_offer hr hp hv, s.after_accept hr hp hv, Regs.edgeLatch_of_ph_ne, hp,
      h.accept_course hp, requestEdges_reduceOption]
  · simp [s.promised_idle hp, s.accepts_of_quiet hv, s.after_quiet hr hp hv, Regs.edgeLatch_of_ph_ne, hp,
      Regs.course_idle hp]
  · rw [State.promised, s.accepts_of_busy hp, s.after_course h hr hp]
    cases s.regs.edgeLatch <;> simp

theorem iterate_after_promised (n : Nat) (s : State) (h : s.Inv) (hr : NoResetDuring n s) :
    (State.after^[n] s).promised = s.promised ++ (acceptedDuring n s).flatMap (contribution s.params) := by
  induction n generalizing s with
  | zero => simp [acceptedDuring]
  | succ n ih =>
    obtain ⟨hrst, hrest⟩ := (noResetDuring_succ n s).1 hr
    rw [Function.iterate_succ_apply, ih s.after (s.after_inv h) hrest, s.after_promised h hrst, s.after_params,
      acceptedDuring_succ, List.flatMap_append, List.append_assoc]

/-- Settles O41: in `IDLE` nothing is promised that is not latched. -/
theorem latchedIsWholeContributionsInOrder : Obligations.LatchedIsWholeContributionsInOrder := by
  intro n s t h hp hr ht hpt
  rw [runs_iff] at ht
  subst ht
  rw [← State.promised_idle _ hpt, iterate_after_promised n s h hr, s.promised_idle hp]

/-! ## Merged programs are performed (R41, R96) -/

/-- A merge holds the requests of each program in the program's order. -/
theorem IsMerge.sublist {programs : List (List Instr)} {merged : List Instr} (h : IsMerge programs merged) :
    ∀ program ∈ programs, program.Sublist merged := by
  induction h with
  | done programs h => exact fun program hMem => by simp [h program hMem]
  | take before after i taken out _ ih =>
    intro program hMem
    rw [List.mem_append, List.mem_cons] at hMem
    obtain hMem | rfl | hMem := hMem
    · exact (ih program (by simp [hMem])).cons i
    · exact (ih taken (by simp)).cons_cons i
    · exact (ih program (by simp [hMem])).cons i

/-- The inputs of requesters that offer these requests one after the other, and nothing else. -/
def heldOffers (requests : List Instr) : List Stimulus := requests.map fun i => .offer (encode i)

theorem noResetDuring_of_heldOffers (n : Nat) {s : State} {requests : List Instr} (hIn : s.inputs = heldOffers requests) :
    NoResetDuring n s :=
  noResetDuring_of_inputs n s (by simp [hIn, heldOffers])

theorem acceptedDuring_add (m n : Nat) (s : State) :
    acceptedDuring (m + n) s = acceptedDuring m s ++ acceptedDuring n (State.after^[m] s) := by
  induction m generalizing s with
  | zero => simp [acceptedDuring]
  | succ m ih => rw [Nat.succ_add, acceptedDuring_succ, acceptedDuring_succ, ih, List.append_assoc, Function.iterate_succ_apply]

theorem iterate_after_inv (n : Nat) {s : State} (h : s.Inv) : (State.after^[n] s).Inv :=
  Function.Iterate.rec State.Inv h State.after_inv n

/-- A busy block leaves held offers alone. -/
theorem after_inputs_of_heldOffers {s : State} {requests : List Instr} (hIn : s.inputs = heldOffers requests)
    (hr : s.ports.rst = false) (hp : s.regs.ph ≠ .idle) : s.after.inputs = heldOffers requests := by
  rw [s.after_busy hr hp, State.commit_inputs]
  cases requests with
  | nil => rw [s.consumeInput_nil hIn, hIn]
  | cons i rest => rw [s.consumeInput_offer_busy _ _ hIn hp, hIn]

/-- During a course held offers stay and none is accepted. -/
theorem course_keeps_heldOffers (n : Nat) (s : State) (requests : List Instr) (h : s.Inv)
    (hIn : s.inputs = heldOffers requests) (hn : n ≤ (s.regs.course s.params).length) :
    (State.after^[n] s).inputs = heldOffers requests ∧ acceptedDuring n s = [] := by
  induction n generalizing s with
  | zero => exact ⟨hIn, rfl⟩
  | succ n ih =>
    have hrst := ((noResetDuring_succ n s).1 (noResetDuring_of_heldOffers _ hIn)).1
    have hp : s.regs.ph ≠ .idle := fun hp => by simp [Regs.course_idle hp] at hn
    rw [s.after_course h hrst hp, List.length_cons, Nat.succ_le_succ_iff, ← s.after_params] at hn
    rw [Function.iterate_succ_apply, acceptedDuring_succ, s.accepts_of_busy hp]
    exact ih s.after (s.after_inv h) (after_inputs_of_heldOffers hIn hrst hp) hn

/-- The first of the requests offered to an idle block is accepted, performed in its time, and leaves the block idle, with the
others still offered. -/
theorem perform_request (s : State) (i : Instr) (rest : List Instr) (h : s.Inv) (hp : s.regs.ph = .idle)
    (hIn : s.inputs = heldOffers (i :: rest)) :
    (State.after^[requestCycles s.params i + 1] s).regs.ph = .idle ∧
    (State.after^[requestCycles s.params i + 1] s).inputs = heldOffers rest ∧
    acceptedDuring (requestCycles s.params i + 1) s = [i] := by
  have hPorts := s.ports_offer _ _ hIn
  have hAfter : s.after = { s.consumeInput with regs := s.regs.accept s.params i } := by
    rw [s.after_accept (by rw [hPorts]) hp (by rw [hPorts]), hPorts, decode_encode]
  have hAccepts : s.accepts = some i := by
    rw [s.accepts_of_offer (by rw [hPorts]) hp (by rw [hPorts]), hPorts, decode_encode]
  have hInAfter : s.after.inputs = heldOffers rest := by
    rw [hAfter, s.consumeInput_offer_idle _ _ hIn hp]
    rfl
  have hCycles : requestCycles s.params i = (s.after.regs.course s.after.params).length := by
    rw [s.after_params, hAfter, h.accept_course hp, requestEdges_length]
  obtain ⟨hInputs, hNone⟩ := course_keeps_heldOffers _ s.after rest (s.after_inv h) hInAfter (Nat.le_refl _)
  rw [Function.iterate_succ_apply, acceptedDuring_succ, hAccepts, hCycles, hNone]
  exact ⟨idle_after_course _ (s.after_inv h) (noResetDuring_of_heldOffers _ hInAfter), hInputs, rfl⟩

/-- All requests offered to an idle block are accepted in order and performed in the sum of their times. -/
theorem perform_requests (p : Params) (requests : List Instr) (s : State) (hParams : s.params = p) (h : s.Inv)
    (hp : s.regs.ph = .idle) (hIn : s.inputs = heldOffers requests) :
    let n := (requests.map fun i => requestCycles p i + 1).sum
    (State.after^[n] s).regs.ph = .idle ∧ (State.after^[n] s).inputs = [] ∧ acceptedDuring n s = requests := by
  induction requests generalizing s with
  | nil => exact ⟨hp, hIn, rfl⟩
  | cons i rest ih =>
    obtain ⟨hIdle, hInputs, hAccepted⟩ := perform_request s i rest h hp hIn
    rw [hParams] at hIdle hInputs hAccepted
    obtain ⟨hIdle', hInputs', hAccepted'⟩ :=
      ih _ ((iterate_after_params _ s).trans hParams) (iterate_after_inv _ h) hIdle hInputs
    dsimp only
    rw [List.map_cons, List.sum_cons, acceptedDuring_add, hAccepted, hAccepted', Nat.add_comm, Function.iterate_add_apply]
    exact ⟨hIdle', hInputs', rfl⟩

/-- Settles O42: the merge is performed request by request, and what is latched is then O41's. -/
theorem mergedProgramsArePerformed : Obligations.MergedProgramsArePerformed := by
  intro programs merged s hMerge h hp
  have hIn : (s.offering merged).inputs = heldOffers merged := rfl
  obtain ⟨hIdle, hInputs, hAccepted⟩ := perform_requests s.params merged (s.offering merged) rfl h hp hIn
  have hRun := (runs_iff (merged.map fun i => requestCycles s.params i + 1).sum (s.offering merged) _).2 rfl
  have hLatched := latchedIsWholeContributionsInOrder _ (s.offering merged) _ h hp (noResetDuring_of_heldOffers _ hIn) hRun hIdle
  dsimp only
  rw [hAccepted] at hLatched ⊢
  exact ⟨rfl, hMerge.sublist, _, hRun, hIdle, hInputs, hLatched⟩

end Sys2Proof.Machine
end

section
/-! SUPPORT. The encoding of requests (30_encoding.md): the fields of a word and the masks of the opcode table (R45, R46), the
one spelling of a SEND and the 512 of INIT (R50), and the text of a request (R55). -/

namespace Sys2Proof

/-! ## The written-out words (R46) -/

/-- Settles O1: five of the words are canonical, the other two have bit 9 set. -/
theorem writtenWordsDecode : Obligations.WrittenWordsDecode :=
  ⟨decode_encode (.sendCmd 0x48), decode_encode (.sendCmd 0xFF), decode_encode (.sendChr 0x0A),
    decode_encode (.sendChr 0x48), decode_encode .init, decode_of_init _ rfl, decode_of_init _ rfl⟩

/-- Settles O2, by `decode_encode`. -/
theorem decodeEncodeRoundTrip : Obligations.DecodeEncodeRoundTrip := decode_encode

/-! ## The rows of the opcode table (R46) -/

theorem and_initMask (w : ReqWord) : w &&& 0x200 = if reqInit w then 0x200 else 0 := BitVec.and_twoPow w 9

theorem and_sendMask (w : ReqWord) :
    w &&& 0x300 = (if reqInit w then 0x200 else 0) ||| (if reqMode w then 0x100 else 0) :=
  calc w &&& 0x300
    _ = (w &&& 0x200) ||| (w &&& 0x100) := BitVec.and_or_distrib_left (x := w) (y := 0x200) (z := 0x100)
    _ = _ := by rw [and_initMask, show w &&& 0x100 = _ from BitVec.and_twoPow w 8]; rfl

theorem and_sendMask_eq_iff (w : ReqWord) (mode : Bool) :
    w &&& 0x300 = (if mode then 0x100 else 0x000) ↔ reqInit w = false ∧ reqMode w = mode := by
  rw [and_sendMask]
  generalize reqInit w = init, reqMode w = modeBit
  revert init modeBit mode
  decide

theorem and_initMask_eq_iff (w : ReqWord) : w &&& 0x200 = 0x200 ↔ reqInit w = true := by
  rw [and_initMask]
  cases reqInit w <;> decide

theorem decode_of_sendMask (w : ReqWord) (m : DataMode) (h : w &&& 0x300 = if m.level then 0x100 else 0x000) :
    decode w = sendCall (reqValue w) m := by
  obtain ⟨hi, hm⟩ := (and_sendMask_eq_iff w m.level).1 h
  rw [decode_of_send w hi, hm]
  cases m <;> rfl

/-- The row selected is the one decoding names. -/
theorem filter_selects (w : ReqWord) :
    (opcodeTable.filter fun row => row.selects w).map OpcodeRow.mnemonic = [(decode w).mnemonic] := by
  simp only [opcodeTable, OpcodeRow.selects, List.filter, and_sendMask, and_initMask, decode]
  cases reqInit w <;> cases reqMode w <;> rfl

/-- Settles O3: the masks pick the bits that decoding tests. -/
theorem everyWordSelectsOneRow : Obligations.EveryWordSelectsOneRow := by
  intro w
  exact ⟨filter_selects w, decode_of_sendMask w .command, decode_of_sendMask w .char,
    fun h => decode_of_init w ((and_initMask_eq_iff w).1 h)⟩

/-! ## Spellings (R50) -/

theorem reqInit_append (b : Bool) (low : BitVec 9) : reqInit (BitVec.ofBool b ++ low) = b := by
  simpa [reqInit] using BitVec.getLsbD_append (x := BitVec.ofBool b) (y := low) (i := 9)

theorem ofBool_getLsbD (w : ReqWord) (i : Nat) : BitVec.ofBool (w.getLsbD i) = w.extractLsb' i 1 := by
  ext j hj
  obtain rfl : j = 0 := by omega
  simp

/-- A word is put together from its fields (R45). -/
theorem fields_append (w : ReqWord) : BitVec.ofBool (reqInit w) ++ BitVec.ofBool (reqMode w) ++ reqValue w = w := by
  rw [reqInit, reqMode, ofBool_getLsbD, ofBool_getLsbD,
    BitVec.extractLsb'_append_extractLsb'_eq_extractLsb' (rfl : 9 = 8 + 1)]
  exact BitVec.extractLsb'_append_extractLsb'

theorem encode_sendCall (v : Byte) (m : DataMode) :
    encode (sendCall v m) = BitVec.ofBool false ++ BitVec.ofBool m.level ++ v := by
  cases m <;> rfl

theorem DataMode.level_ite (b : Bool) : (if b then DataMode.char else .command).level = b := by cases b <;> rfl

/-- A SEND's word is its only one. -/
theorem encode_decode_of_send (w : ReqWord) (hi : reqInit w = false) : encode (decode w) = w := by
  rw [decode_of_send w hi, encode_sendCall, DataMode.level_ite, ← hi, fields_append]

/-- Settles O4: a word with bit 9 clear is put together from its fields again. -/
theorem initIgnoresLowBits : Obligations.InitIgnoresLowBits := by
  refine ⟨fun low => decode_of_init _ (reqInit_append true low), rfl, fun w => ?_⟩
  change encode (decode w) = if reqInit w then 0x200 else w
  cases hi : reqInit w with
  | false => exact encode_decode_of_send w hi
  | true => rw [decode_of_init w hi]; rfl

end Sys2Proof

namespace Sys2Proof.Machine

/-! ## The text of a byte (R55) -/

theorem hexDigit_hexChar (n : Nibble) : hexDigit (hexChar n) = some n.toNat := by
  revert n
  decide

theorem byteOf_toNat (v : Byte) : byteOf v.toNat = some v := by simp [byteOf, v.isLt]

/-- The two nibbles of a byte as the number they spell. -/
theorem nibbles_toNat (v : Byte) : 16 * (v.extractLsb' 4 4).toNat + (v.extractLsb' 0 4).toNat = v.toNat := by
  simp only [BitVec.extractLsb'_toNat]
  omega

theorem parseByte_hex (h l : Char) {a b : Nat} (ha : hexDigit h = some a) (hb : hexDigit l = some b) :
    parseByte ['0', 'x', h, l] = byteOf (16 * a + b) := by
  simp [parseByte, ha, hb]

theorem parseByte_printByte (v : Byte) : parseByte (printByte v) = some v := by
  rw [printByte, parseByte_hex _ _ (hexDigit_hexChar _) (hexDigit_hexChar _), nibbles_toNat, byteOf_toNat]

/-! ## The tokens of a line (R55) -/

/-- A character that only ever lengthens the token it stands in. -/
def isPlain (c : Char) : Bool := c ∉ ['\'', ';', ':', ' ', '\t']

theorem tokens_cons_plain (token rest : List Char) {c : Char} (h : isPlain c = true) :
    tokens token (c :: rest) = tokens (token ++ [c]) rest := by
  simp only [isPlain, List.mem_cons, List.not_mem_nil, or_false, not_or, decide_eq_true_eq] at h
  obtain ⟨hQuote, hComment, hColon, hBlank, hTab⟩ := h
  simp [tokens, *]

/-- A plain word is read as part of one token. -/
theorem tokens_append_plain (token word rest : List Char) (h : word.all isPlain = true) :
    tokens token (word ++ rest) = tokens (token ++ word) rest := by
  induction word generalizing token with
  | nil => simp
  | cons c word ih =>
    obtain ⟨hc, hWord⟩ := (Bool.and_eq_true _ _).mp h
    rw [List.cons_append, tokens_cons_plain _ _ hc, ih _ hWord, List.append_assoc, List.singleton_append]

theorem isPlain_hexChar (n : Nibble) : isPlain (hexChar n) = true := by
  revert n
  decide

theorem printByte_plain (v : Byte) : (printByte v).all isPlain = true := by
  simp [printByte, isPlain_hexChar, show isPlain '0' = true from rfl, show isPlain 'x' = true from rfl]

/-- Two plain words with a blank between them. -/
theorem tokens_pair {a b : List Char} (ha : a.all isPlain = true) (hb : b.all isPlain = true)
    (haNil : a ≠ []) (hbNil : b ≠ []) :
    tokens [] (a ++ ' ' :: b) = [a, b] := by
  calc tokens [] (a ++ ' ' :: b)
    _ = withToken a (tokens [] b) := by rw [tokens_append_plain _ _ _ ha, List.nil_append, tokens]
    _ = withToken a (withToken b []) := by
      rw [← List.append_nil b, tokens_append_plain _ _ _ hb, List.append_nil, List.nil_append, tokens]
    _ = [a, b] := by simp [withToken, haNil, hbNil]

/-! ## The text of a request (R55) -/

theorem printRequest_sendCall (v : Byte) (m : DataMode) :
    printRequest (sendCall v m) = (sendCall v m).mnemonic.toList ++ ' ' :: printByte v := by
  rw [List.append_cons]
  cases m with
  | command => exact congrArg (· ++ printByte v) (by decide : "SEND.CMD ".toList = "SEND.CMD".toList ++ [' '])
  | char => exact congrArg (· ++ printByte v) (by decide : "SEND.CHR ".toList = "SEND.CHR".toList ++ [' '])

theorem mnemonic_plain (i : Instr) : i.mnemonic.toList.all isPlain = true := by
  cases i <;> simp [Instr.mnemonic, isPlain]

theorem mnemonic_ne_nil (i : Instr) : i.mnemonic.toList ≠ [] := by
  cases i <;> simp [Instr.mnemonic]

theorem tokens_printRequest_sendCall (v : Byte) (m : DataMode) :
    tokens [] (printRequest (sendCall v m)) = [(sendCall v m).mnemonic.toList, printByte v] := by
  rw [printRequest_sendCall]
  exact tokens_pair (mnemonic_plain _) (printByte_plain v) (mnemonic_ne_nil _) (List.cons_ne_nil _ _)

theorem parseRequest_sendCall (v : Byte) (m : DataMode) {b : List Char} (hb : parseByte b = some v) :
    parseRequest [(sendCall v m).mnemonic.toList, b] = .ok (some (sendCall v m)) := by
  cases m <;> simp [parseRequest, hb, Instr.mnemonic]

theorem parseLine_of_pair {text name b : List Char} (h : tokens [] text = [name, b]) (hb : b ≠ [':']) :
    parseLine text = (parseRequest [name, b]).map fun r => ⟨none, r⟩ := by
  simp [parseLine, h, hb]

theorem parseLine_printRequest_sendCall (v : Byte) (m : DataMode) :
    parseLine (printRequest (sendCall v m)) = .ok ⟨none, some (sendCall v m)⟩ := by
  rw [parseLine_of_pair (tokens_printRequest_sendCall v m) (by simp [printByte]),
    parseRequest_sendCall v m (parseByte_printByte v)]
  rfl

/-- Settles O5: a SEND's text is two plain words, its mnemonic and its byte; INIT's is closed. -/
theorem printedRequestReadsBack : Obligations.PrintedRequestReadsBack := by
  intro i
  cases i with
  | sendCmd v => exact parseLine_printRequest_sendCall v .command
  | sendChr v => exact parseLine_printRequest_sendCall v .char
  | init => rfl

end Sys2Proof.Machine
end

section
/-! SUPPORT. The transfers (40_transfer.md): the acceptance of a request (R61 to R64), the step as R62's tick, the successors of
the phases (R67), the waveform of a SEND and its completion (R65, R72), and the events of Level E with their times at Level T
(R57 to R60, R71). -/

namespace Sys2Proof.Machine

/-! ## Accepting a request (R61 to R64, R73) -/

/-- A SEND of either mode (R63, R64). -/
theorem Regs.accept_sendCall (p : Params) (r : Regs) (m : DataMode) (v : Byte) :
    r.accept p (sendCall v m) = r.acceptSend m v := by
  cases m <;> rfl

/-- The state right after a request is accepted. -/
def State.accepted (s : State) (i : Instr) : State := { s with regs := s.regs.accept s.params i }

/-- Settles O14, by `exec_idle`. -/
theorem sendCmdAccepted : Obligations.SendCmdAccepted := fun v s h => exec_idle (.sendCmd v) s h

/-- Settles O15, by `exec_idle`. -/
theorem sendChrAccepted : Obligations.SendChrAccepted := fun v s h => exec_idle (.sendChr v) s h

/-- Settles O16, by `exec_idle`: no line is among the registers that INIT sets. -/
theorem initAccepted : Obligations.InitAccepted := exec_idle .init

/-- Settles O6: of the tests of a step the offered word is the second (R89). -/
theorem stepExecutesOfferedRequest : Obligations.StepExecutesOfferedRequest := by
  intro s hr hv
  exact ⟨by simp [step, hr, hv], rfl⟩

/-- Settles O7: the placed word is offered at the next edge, and in `IDLE` the offer ends there. -/
theorem placedWordExecutedNext : Obligations.PlacedWordExecutedNext := by
  intro s nbits w hp
  have hIn : (s.withFetchWord nbits w).inputs = .offer (portWord w) :: s.inputs := rfl
  have hPlaced : s.withFetchWord nbits w = { s with inputs := .offer (portWord w) :: s.inputs } := by
    rw [State.withFetchWord, s.atIdle_of_idle hp]
  obtain ⟨hStep, -⟩ := stepExecutesOfferedRequest (s.withFetchWord nbits w) rfl rfl
  rw [hStep, State.consumeInput_offer_idle _ _ _ hIn (by rw [hPlaced]; exact hp), hPlaced]
  rfl

/-! ## The step is R62's tick -/

theorem tick_reset (p : Params) (r : Regs) (v : Bool) (w : ReqWord) : tick p r true v w = Regs.reset := rfl

theorem tick_quiet (p : Params) (r : Regs) (w : ReqWord) (hp : r.ph = .idle) : tick p r false false w = r := by
  simp [tick, hp]

/-- R62 reads the bits of the word that decoding reads. -/
theorem tick_accept (p : Params) (r : Regs) (w : ReqWord) (hp : r.ph = .idle) :
    tick p r false true w = r.accept p (decode w) := by
  have hInit : w[9] = reqInit w := rfl
  have hMode : w[8] = reqMode w := rfl
  have hValue : w.truncate 8 = reqValue w := BitVec.setWidth_eq_extractLsb' (by decide)
  simp only [tick, hp, hInit, hMode, hValue, decode]
  cases reqInit w <;> cases reqMode w <;> rfl

/-- R62's text for a request in flight, with the machine's operations for its helpers. -/
theorem tick_busy (p : Params) (r : Regs) (v : Bool) (w : ReqWord) (hp : r.ph ≠ .idle) :
    tick p r false v w = r.advance p := by
  simp only [tick, hp, Regs.advance, Regs.phaseEnd, Regs.settleEnd, tickGuard_eq_guard, tickSingle_eq_single,
    tickStartStep_eq_startStep, if_false, Bool.false_eq_true]
  rfl

/-- Settles O9, by the four kinds of edge. -/
theorem stepIsTick : Obligations.StepIsTick := by
  intro s
  refine ⟨s.after, step_eq_after s, ?_⟩
  obtain hr | ⟨hr, hp, hv⟩ | ⟨hr, hp, hv⟩ | ⟨hr, hp⟩ := s.edge_cases
  · rw [s.after_reset hr, hr, tick_reset]
    rfl
  · rw [s.after_accept hr hp hv, hr, hv, tick_accept _ _ _ hp]
  · rw [s.after_quiet hr hp hv, hr, hv, tick_quiet _ _ _ hp]
    rfl
  · rw [s.after_busy hr hp, hr, tick_busy _ _ _ _ hp]
    rfl

/-! ## An offer is ignored while a request is in flight (R61, R69(g)) -/

/-- Settles O17: the edge of a busy block reads its registers only, and a held offer stays. -/
theorem offerIgnoredWhileBusy : Obligations.OfferIgnoredWhileBusy := by
  intro s hp hr
  refine ⟨fun inputs t u hr' ht hu => ?_, fun w rest t hIn ht => ?_, fun i j => ?_, s.accepts_of_busy hp⟩
  · rw [step_next_iff] at ht hu
    rw [s.after_busy hr hp] at ht
    rw [State.after_busy _ hr' hp] at hu
    subst ht hu
    rfl
  · rw [step_next_iff] at ht
    rw [ht, s.after_busy hr hp, State.commit_inputs, s.consumeInput_offer_busy w rest hIn hp]
  · rw [exec_busy i s hp, exec_busy j s hp]

/-! ## The successor of each phase (R67) -/

/-- The two decision points at the end of `SETTLE` (R67). -/
theorem Regs.settleEnd_ph (p : Params) (r : Regs) :
    (r.half = false → r.single = false → (r.settleEnd p).ph = .db) ∧
    (r.half = true ∨ r.single = true →
      (r.inInit = true → r.istep.val < 8 → (r.settleEnd p).ph = .rs) ∧
      (r.inInit = false ∨ r.istep = 8 → (r.settleEnd p).ph = .idle)) := by
  obtain ⟨hh, hs, hEnd⟩ | ⟨hl, hi, hk, hEnd⟩ | ⟨hl, hi, hk, hEnd⟩ | ⟨hh, hi, hEnd⟩ := r.settleEnd_cases p <;> rw [hEnd]
  · simp [hh, hs]
  · obtain hl | hl := hl <;> simp [hl, hi, hk]
  · obtain hl | hl := hl <;> simp [hl, hi, hk]
  · simp [hh, hi]

/-- What follows each phase at its end (R67). -/
theorem Regs.phaseEnd_ph (p : Params) (r : Regs) :
    (r.ph = .wait → (r.phaseEnd p).ph = .rs ∧ (r.phaseEnd p).istep = 1) ∧
    (r.ph = .rs → (r.phaseEnd p).ph = .db) ∧ (r.ph = .db → (r.phaseEnd p).ph = .enlo) ∧
    (r.ph = .enlo → (r.phaseEnd p).ph = .enhi) ∧ (r.ph = .enhi → (r.phaseEnd p).ph = .settle) := by
  cases hp : r.ph <;> simp [Regs.phaseEnd, hp]

/-- Settles O19: a phase changes by an acceptance or at its end. -/
theorem phaseSuccessors : Obligations.PhaseSuccessors := by
  intro s t hr ht
  rw [step_next_iff] at ht
  subst ht
  obtain ⟨hp, hv, h⟩ | ⟨hp, hv, h⟩ | ⟨hp, ht, h⟩ | ⟨hp, ht, h⟩ := s.after_cases hr <;> rw [h]
  · simp [s.accepts_of_quiet hv, hp]
  · rw [s.accepts_of_offer hr hp hv]
    cases decode s.ports.reqWord <;> simp [hp, Regs.accept]
  · simp [hp, ht]
  · obtain ⟨hWait, hRs, hDb, hEnlo, hEnhi⟩ := s.regs.phaseEnd_ph s.params
    simp only [State.commit_regs, hp, ht]
    refine ⟨by simp, by simp, by simp, by simp, fun _ => ⟨hWait, hRs, hDb, hEnlo, hEnhi, fun hSettle => ?_⟩⟩
    rw [s.regs.phaseEnd_settle _ hSettle]
    exact s.regs.settleEnd_ph s.params

/-! ## RS changes only at the start of a transfer (R59, R69(e)) -/

/-- Of the ends of a phase only the start of an initializer step writes RS. -/
theorem Regs.phaseEnd_of_rs_ne (p : Params) (r : Regs) (hne : (r.phaseEnd p).rs ≠ r.rs) :
    (r.ph = .wait ∨ r.ph = .settle) ∧ ∃ k, r.phaseEnd p = r.startStep p k := by
  cases hp : r.ph with
  | idle | rs | db | enlo | enhi => simp [Regs.phaseEnd, hp] at hne
  | wait => exact ⟨.inl rfl, 1, r.phaseEnd_wait p hp⟩
  | settle =>
    rw [r.phaseEnd_settle p hp] at hne ⊢
    obtain ⟨-, -, hEnd⟩ | ⟨-, -, -, hEnd⟩ | ⟨-, -, -, hEnd⟩ | ⟨-, -, hEnd⟩ := r.settleEnd_cases p
    · simp [hEnd] at hne
    · simp [hEnd] at hne
    · exact ⟨.inr rfl, _, hEnd⟩
    · simp [hEnd] at hne

/-- An acceptance that changes RS is a SEND's. -/
theorem Regs.accept_ph_of_rs_ne (p : Params) (r : Regs) (i : Instr) (hne : (r.accept p i).rs ≠ r.rs) :
    (r.accept p i).ph = .rs := by
  cases i with
  | sendCmd v | sendChr v => rfl
  | init => exact absurd rfl hne

/-- Settles O25: an acceptance happens in `IDLE` and a start of a step at the end of `WAIT` or `SETTLE`, where EN is low. -/
theorem rsChangesOnlyWhenATransferStarts : Obligations.RsChangesOnlyWhenATransferStarts := by
  intro s t hInv hr ht hne
  rw [step_next_iff] at ht
  subst ht
  obtain ⟨-, -, h⟩ | ⟨hp, -, h⟩ | ⟨-, -, h⟩ | ⟨-, -, h⟩ := s.after_cases hr <;> rw [h] at hne ⊢
  · exact absurd rfl hne
  · have hen : s.regs.en = false := hInv.en_eq_false (by simp [hp])
    exact ⟨s.regs.accept_ph_of_rs_ne _ _ hne, by simp [hp], hen, (s.regs.accept_en _ _).trans hen⟩
  · exact absurd rfl hne
  · obtain ⟨hp, k, hEnd⟩ := s.regs.phaseEnd_of_rs_ne s.params hne
    have hen : s.regs.en = false := hInv.en_eq_false (by obtain hp | hp := hp <;> simp [hp])
    rw [State.commit_regs, hEnd]
    exact ⟨rfl, by obtain hp | hp := hp <;> simp [hp], hen, hen⟩

/-! ## Level E: what is latched, and the holds (R58, R70, R83) -/

/-- A nibble driven with EN low is latched once, and leaves EN low (R58, R70). -/
theorem latchedOf_nibbleEvents (p : Params) (l : Lines) (n : Nibble) (es : List Event) (h : l.en = false) :
    latchedOf l (nibbleEvents p n ++ es) = ⟨l.rs, n⟩ :: latchedOf { l with en := false, db := n } es := by
  simp [nibbleEvents, latchedOf, Lines.write, h]

theorem latchedOf_setRS (l : Lines) (b : Bool) (es : List Event) (h : l.en = false) :
    latchedOf l (.set (.setRS b) :: es) = latchedOf { l with rs := b } es := by
  simp [latchedOf, Lines.write, h]

/-- `BYTE(m, v)` latches its two pairs (R59, R70). -/
theorem latchedOf_byteEvents (p : Params) (l : Lines) (m : DataMode) (v : Byte) (es : List Event) (h : l.en = false) :
    latchedOf l (byteEvents p m v ++ es) = bytePairs m v ++ latchedOf ⟨m.level, false, loNibble v⟩ es := by
  simp [byteEvents, bytePairs, latchedOf_setRS, latchedOf_nibbleEvents, h]

/-- `NIBCMD(n, g)` latches its pair (R60, R70). -/
theorem latchedOf_nibCmdEvents (p : Params) (l : Lines) (n : Nibble) (g : Nat) (es : List Event) (h : l.en = false) :
    latchedOf l (nibCmdEvents p n g ++ es) = ⟨false, n⟩ :: latchedOf ⟨false, false, n⟩ es := by
  simp [nibCmdEvents, latchedOf_setRS, latchedOf_nibbleEvents, h]

/-- Settles O44: a request's list is made of bytes and single nibbles, each of which leaves EN low for the next. -/
theorem eventsLatchTheContribution : Obligations.EventsLatchTheContribution := by
  intro p i l h
  have hSend (m : DataMode) (v : Byte) : latchedOf l (byteEvents p m v) = bytePairs m v := by
    simpa [latchedOf] using latchedOf_byteEvents p l m v [] h
  cases i with
  | sendCmd v => exact hSend .command v
  | sendChr v => exact hSend .char v
  | init =>
    have hLast := latchedOf_byteEvents p ⟨false, false, loNibble p.cDisplayCtrl⟩ .command p.cClear [] rfl
    rw [List.append_nil] at hLast
    simp [requestEvents, initEvents, latchedOf_nibCmdEvents, latchedOf_byteEvents, h, contribution, DataMode.level, hLast,
      latchedOf]

/-- Settles O46: a conforming list is taken apart `Set` by `Set`. -/
theorem nibbleHoldsAreLowerBounds : Obligations.NibbleHoldsAreLowerBounds := by
  intro p n tEnd ws h
  simp only [nibbleEvents, List.append_assoc, List.cons_append, List.nil_append] at h
  obtain ⟨t0, ws, rfl, -, h⟩ := exists_of_conforms_set _ _ _ _ _ _ h
  obtain ⟨t1, ws, rfl, h1, h⟩ := exists_of_conforms_set _ _ _ _ _ _ h
  rw [conforms_holdFor] at h
  obtain ⟨t2, ws, rfl, h2, h⟩ := exists_of_conforms_set _ _ _ _ _ _ h
  rw [conforms_holdFor] at h
  obtain ⟨t3, ws, rfl, h3, h⟩ := exists_of_conforms_set _ _ _ _ _ _ h
  rw [← List.append_nil (holdFor p.nSettle), conforms_holdFor] at h
  obtain rfl := eq_nil_of_conforms_nil _ _ _ _ h
  have hEnd : t3 + (0 + p.nSettle) ≤ tEnd := by simpa [conforms] using h
  exact ⟨t0, t1, t2, t3, rfl, by omega, by omega, by omega, by omega⟩

/-! ## The waveform of a SEND (R65) -/

section
variable {p : Params} {r : Regs}

theorem nibblePeriod_pos (p : Params) : 1 ≤ nibblePeriod p := by
  unfold nibblePeriod
  omega

/-- In its last cycle the high nibble of a byte is followed by the low one. -/
theorem nibbleWave_next_nibble (g : Nat) (n : Nibble) (hs : r.single = false) :
    (nibbleWave p g false n r (nibblePeriod p + g - 1)).advance p = nibbleWave p 0 true (loNibble r.val) r 0 := by
  have hs' : Regs.single { r with half := false, db := n, en := false, ph := .settle, tmr := 0 } = false := hs
  rw [nibbleWave_last, Regs.advance_end _ _ (by simp) rfl, Regs.phaseEnd_settle _ _ rfl, Regs.settleEnd, if_pos ⟨rfl, hs'⟩]
  rfl

/-- From the `RS` cycle through the first nibble of a transfer, one edge moves the waveform one cycle on. -/
theorem transferWave_advance_first (g i : Nat) (hg : g = r.guard p) (he : r.en = false) (hi : i < nibblePeriod p + g) :
    (transferWave p g r i).advance p = transferWave p g r (i + 1) := by
  unfold transferWave
  rw [if_neg (Nat.succ_ne_zero i), if_pos (Nat.succ_le_of_lt hi), Nat.add_sub_cancel]
  cases i with
  | zero => simp [Regs.advance, Regs.phaseEnd, nibbleWave, he]
  | succ i => rw [if_neg (Nat.succ_ne_zero i), if_pos hi.le, Nat.add_sub_cancel, nibbleWave_advance _ _ _ _ _ _ hg hi]

/-- The second nibble of a byte begins a nibble period after the first. -/
theorem transferWave_second (i : Nat) :
    transferWave p 0 r (nibblePeriod p + (i + 1)) = nibbleWave p 0 true (loNibble r.val) r i := by
  have hi : nibblePeriod p + (i + 1) - 1 - nibblePeriod p = i := by omega
  rw [transferWave, if_neg (by omega), if_neg (by omega), hi]

/-- From the end of the first nibble of a byte through the second, one edge moves the waveform one cycle on. -/
theorem transferWave_advance_second (i : Nat) (hg : r.guard p = 0) (hs : r.single = false) (hi : i < nibblePeriod p) :
    (transferWave p 0 r (nibblePeriod p + i)).advance p = transferWave p 0 r (nibblePeriod p + (i + 1)) := by
  rw [transferWave_second]
  cases i with
  | zero =>
    rw [transferWave, if_neg (by omega), if_pos (Nat.le_refl _)]
    exact nibbleWave_next_nibble 0 (hiNibble r.val) hs
  | succ i => rw [transferWave_second, nibbleWave_advance _ _ _ _ _ _ hg.symm hi]

/-- The last cycle of a byte's transfer. -/
theorem transferWave_last :
    transferWave p 0 r (2 * nibblePeriod p) =
      { r with half := true, db := loNibble r.val, en := false, ph := .settle, tmr := 0 } := by
  have hLast : 2 * nibblePeriod p = nibblePeriod p + (nibblePeriod p + 0 - 1 + 1) := by
    have hPos := nibblePeriod_pos p
    omega
  rw [hLast, transferWave_second, nibbleWave_last]

theorem nibbleWave_ph_ne_idle (g : Nat) (half : Bool) (n : Nibble) (i : Nat) : (nibbleWave p g half n r i).ph ≠ .idle := by
  unfold nibbleWave
  dsimp only
  split_ifs <;> simp

theorem transferWave_ph_ne_idle (g i : Nat) : (transferWave p g r i).ph ≠ .idle := by
  unfold transferWave
  split_ifs
  · simp
  · exact nibbleWave_ph_ne_idle _ _ _ _
  · exact nibbleWave_ph_ne_idle _ _ _ _

theorem sendWave_ph_ne_idle (m : DataMode) (v : Byte) {k : Nat} (hk : k < sendCycles p) : (sendWave p m v r k).ph ≠ .idle := by
  rw [sendWave, if_pos hk]
  exact transferWave_ph_ne_idle 0 k

/-- Cycle 0 begins at the accepting edge. -/
theorem sendWave_zero (m : DataMode) (v : Byte) : sendWave p m v r 0 = r.acceptSend m v := by
  have hPos : 0 < sendCycles p := by unfold sendCycles; omega
  rw [sendWave, if_pos hPos]
  rfl

/-- The first cycle back in `IDLE`. -/
theorem sendWave_sendCycles (m : DataMode) (v : Byte) : sendWave p m v r (sendCycles p) =
    { r with val := v, rs := m.level, half := true, ph := .idle, tmr := 0, db := loNibble v } :=
  if_neg (Nat.lt_irrefl _)

/-- One edge moves the waveform of a SEND one cycle on, the last cycle to `IDLE`. -/
theorem sendWave_advance (m : DataMode) (v : Byte) (hi : r.inInit = false) (he : r.en = false) {k : Nat}
    (hk : k < sendCycles p) : (sendWave p m v r k).advance p = sendWave p m v r (k + 1) := by
  have hs : Regs.single { r with val := v, rs := m.level } = false := by simp [Regs.single, hi]
  have hg : Regs.guard p { r with val := v, rs := m.level } = 0 := by simp [Regs.guard, hi]
  have hWave : sendWave p m v r k = transferWave p 0 { r with val := v, rs := m.level } k := if_pos hk
  rw [hWave]
  unfold sendCycles at hk
  obtain hFirst | hSecond := Nat.lt_or_ge k (nibblePeriod p)
  · rw [transferWave_advance_first 0 k hg.symm he hFirst, sendWave, if_pos (by unfold sendCycles; omega)]
  obtain ⟨i, rfl⟩ := Nat.exists_eq_add_of_le hSecond
  by_cases hLow : i < nibblePeriod p
  · rw [transferWave_advance_second i hg hs hLow, sendWave, if_pos (by unfold sendCycles; omega), Nat.add_assoc]
  · have hLast : nibblePeriod p + i = 2 * nibblePeriod p := by omega
    have hEnd : 2 * nibblePeriod p + 1 = sendCycles p := Nat.add_comm _ _
    rw [hLast, transferWave_last, hEnd, sendWave_sendCycles, Regs.advance_end _ _ (by simp) rfl,
      Regs.phaseEnd_settle _ _ rfl]
    simp [Regs.settleEnd, hi, he]

end

/-- In every cycle from the acceptance of a SEND to `IDLE` the registers are those of the waveform. -/
theorem send_regs (m : DataMode) (v : Byte) (s : State) (h : s.Inv) (hp : s.regs.ph = .idle) (k : Nat)
    (hk : k ≤ sendCycles s.params) (hr : NoResetDuring k (s.accepted (sendCall v m))) :
    (State.after^[k] (s.accepted (sendCall v m))).regs = sendWave s.params m v s.regs k := by
  obtain ⟨-, hi, -, he⟩ := h.r29.a hp
  induction k with
  | zero =>
    rw [sendWave_zero]
    exact s.regs.accept_sendCall s.params m v
  | succ k ih =>
    have ih := ih (Nat.le_of_succ_le hk) (hr.mono (Nat.le_succ k))
    have hrst := (noResetDuring_iff (k + 1) _).1 hr k (Nat.lt_succ_self k)
    have hBusy : (State.after^[k] (s.accepted (sendCall v m))).regs.ph ≠ .idle := by
      rw [ih]
      exact sendWave_ph_ne_idle m v hk
    rw [Function.iterate_succ_apply', State.after_busy _ hrst hBusy, State.commit_regs, iterate_after_params, ih]
    exact sendWave_advance m v hi he hk

/-- Settles O35: the waveform begins with the acceptance and every edge moves it one cycle on. -/
theorem sendWaveform : Obligations.SendWaveform := by
  intro m v s h hp
  exact ⟨s.accepted (sendCall v m), exec_idle _ s hp, fun k hk hr =>
    ⟨_, (runs_iff _ _ _).2 rfl, send_regs m v s h hp k hk hr⟩⟩

/-! ## A request from its acceptance to `IDLE` -/

/-- Before the end of the course the block is busy. -/
theorem busy_before_course_end {n : Nat} {s : State} (h : s.Inv) (hn : n < (s.regs.course s.params).length)
    (hr : NoResetDuring n s) : (State.after^[n] s).regs.ph ≠ .idle := by
  rw [Ne, ← Regs.course_eq_nil_iff (p := s.params), iterate_after_course n s h hr hn.le, List.drop_eq_nil_iff]
  exact Nat.not_le_of_lt hn

/-- During a course nothing is accepted. -/
theorem acceptedDuring_course (n : Nat) (s : State) (h : s.Inv) (hn : n ≤ (s.regs.course s.params).length)
    (hr : NoResetDuring n s) : acceptedDuring n s = [] := by
  induction n with
  | zero => rfl
  | succ n ih =>
    have hBusy := busy_before_course_end h hn (hr.mono (Nat.le_succ n))
    rw [acceptedDuring_add, ih (Nat.le_of_succ_le hn) (hr.mono (Nat.le_succ n)), acceptedDuring_succ,
      State.accepts_of_busy _ hBusy]
    rfl

/-- When the course is over the controller has latched what it promised. -/
theorem latched_after_course (s : State) (h : s.Inv) (hr : NoResetDuring (s.regs.course s.params).length s) :
    (State.after^[(s.regs.course s.params).length] s).latched = s.promised := by
  rw [← State.promised_idle _ (idle_after_course s h hr), iterate_after_promised _ s h hr,
    acceptedDuring_course _ s h (Nat.le_refl _) hr, List.flatMap_nil, List.append_nil]

theorem iterate_after_freeCount (n : Nat) (s : State) (hr : NoResetDuring n s) :
    (State.after^[n] s).freeCount = s.freeCount := by
  induction n with
  | zero => rfl
  | succ n ih =>
    rw [Function.iterate_succ_apply', State.after_freeCount _ ((noResetDuring_iff _ s).1 hr n (Nat.lt_succ_self n)),
      ih (hr.mono (Nat.le_succ n))]

section
variable {s : State} (h : s.Inv) (hp : s.regs.ph = .idle) (i : Instr)
include h hp

theorem State.accepted_inv : (s.accepted i).Inv := Regs.Inv.accept h hp i

/-- The course of an accepted request has its length (R72, R84). -/
theorem State.accepted_course_length :
    ((s.accepted i).regs.course (s.accepted i).params).length = requestCycles s.params i :=
  (congrArg List.length (Regs.Inv.accept_course h hp i)).trans (requestEdges_length i)

/-- An accepted request promises its contribution (R63, R64, R83). -/
theorem State.accepted_promised : (s.accepted i).promised = s.latched ++ contribution s.params i :=
  congrArg (s.latched ++ ·) ((congrArg List.reduceOption (Regs.Inv.accept_course h hp i)).trans (requestEdges_reduceOption i))

theorem request_busy {k : Nat} (hk : k < requestCycles s.params i) (hr : NoResetDuring k (s.accepted i)) :
    (State.after^[k] (s.accepted i)).regs.ph ≠ .idle :=
  busy_before_course_end (State.accepted_inv h hp i) (by rwa [State.accepted_course_length h hp i]) hr

theorem request_idle (hr : NoResetDuring (requestCycles s.params i) (s.accepted i)) :
    (State.after^[requestCycles s.params i] (s.accepted i)).regs.ph = .idle := by
  rw [← State.accepted_course_length h hp i] at hr ⊢
  exact idle_after_course _ (State.accepted_inv h hp i) hr

theorem request_latched (hr : NoResetDuring (requestCycles s.params i) (s.accepted i)) :
    (State.after^[requestCycles s.params i] (s.accepted i)).latched = s.latched ++ contribution s.params i := by
  rw [← State.accepted_promised h hp i]
  rw [← State.accepted_course_length h hp i] at hr ⊢
  exact latched_after_course _ (State.accepted_inv h hp i) hr

end

@[simp] theorem requestCycles_sendCall (p : Params) (v : Byte) (m : DataMode) :
    requestCycles p (sendCall v m) = sendCycles p := by
  cases m <;> rfl

@[simp] theorem contribution_sendCall (p : Params) (v : Byte) (m : DataMode) :
    contribution p (sendCall v m) = bytePairs m v := by
  cases m <;> rfl

/-- Settles O36: the registers are the last of the waveform, what is latched is the contribution. -/
theorem sendCompletes : Obligations.SendCompletes := by
  intro m v s h hp
  refine ⟨s.accepted (sendCall v m), exec_idle _ s hp, fun hr => ⟨fun k t hk ht => ?_, _, (runs_iff _ _ _).2 rfl, ?_, ?_, ?_, ?_⟩⟩
  · rw [runs_iff] at ht
    have hBusy := request_busy h hp (sendCall v m) (by rwa [requestCycles_sendCall]) (hr.mono hk.le)
    simpa [ht, Regs.busy] using hBusy
  · obtain ⟨-, -, -, he⟩ := h.r29.a hp
    rw [send_regs m v s h hp _ (Nat.le_refl _) hr, sendWave_sendCycles, he]
  · have hLatched := request_latched h hp (sendCall v m) (by rwa [requestCycles_sendCall])
    rwa [requestCycles_sendCall, contribution_sendCall] at hLatched
  · rw [iterate_after_params]
    rfl
  · rw [iterate_after_freeCount _ _ hr]
    rfl

theorem requestCycles_pos (p : Params) (i : Instr) : 0 < requestCycles p i := by
  have hPos := p.nPowerup_pos
  cases i <;> simp only [requestCycles, sendCycles, initCycles] <;> omega

/-- The state that the acceptance of a request leaves. -/
theorem State.after_accepts (s : State) (i : Instr) (h : s.accepts = some i) : s.after = s.consumeInput.accepted i := by
  obtain ⟨hr, hp, hv, rfl⟩ := accepts_eq_some s i h
  exact s.after_accept hr hp hv

/-- After a request is accepted the block is busy for the request's length and then idle. -/
theorem busy_after_accepts (s : State) (h : s.Inv) (i : Instr) (hAcc : s.accepts = some i)
    (hr : NoResetDuring (requestCycles s.params i + 1) s) :
    (∀ k t, 0 < k → k ≤ requestCycles s.params i → Runs k s t → t.regs.ph ≠ .idle) ∧
    ∃ t, Runs (requestCycles s.params i + 1) s t ∧ t.regs.ph = .idle := by
  obtain ⟨-, hp, -, -⟩ := accepts_eq_some s i hAcc
  obtain ⟨-, hr⟩ := (noResetDuring_succ _ s).1 hr
  rw [s.after_accepts i hAcc] at hr
  have hc : s.consumeInput.Inv := h
  refine ⟨fun k t hPos hk ht => ?_, _, (runs_iff _ _ _).2 rfl, ?_⟩
  · obtain ⟨k, rfl⟩ := Nat.exists_eq_succ_of_ne_zero hPos.ne'
    rw [runs_iff, Function.iterate_succ_apply, s.after_accepts i hAcc] at ht
    rw [ht]
    exact request_busy hc hp i hk (hr.mono (Nat.le_of_succ_le hk))
  · rw [Function.iterate_succ_apply, s.after_accepts i hAcc]
    exact request_idle hc hp i hr

/-- Settles O40: a busy block accepts nothing, an idle one what is offered. -/
theorem backToBackSends : Obligations.BackToBackSends := by
  intro m v s h hAcc hr
  have hCycles : requestCycles s.params (sendCall v m) + 1 = 2 * nibblePeriod s.params + 2 := by
    rw [requestCycles_sendCall]
    unfold sendCycles
    omega
  obtain ⟨hBusy, t, ht, hIdle⟩ := busy_after_accepts s h _ hAcc (hr.mono (by omega))
  rw [hCycles] at ht
  refine ⟨fun k t hPos hk ht => t.accepts_of_busy (hBusy k t hPos (by omega) ht), t, ht, ?_⟩
  simp [State.accepts, hr _ t (Nat.lt_succ_self _) ht, hIdle]

/-! ## The schedule of an event list (R71) -/

/-- The holds so far move the start: past a hold, or from an acceptance on, the times are those of a list begun later. -/
theorem schedule_of_hold (t h a : Nat) (first : Bool) (es : List Event) (hh : h ≠ 0 ∨ first = true) :
    schedule t (h + a) first es = schedule (t + h) a true es := by
  induction es generalizing a with
  | nil => simp [schedule, Nat.add_assoc]
  | cons e es ih =>
    cases e with
    | hold n => simpa [schedule, Nat.add_assoc] using ih (a + n)
    | set w =>
      have hFirst : ¬ (h + a = 0 ∧ first = false) := by
        rintro ⟨h0, hf⟩
        obtain hh | hh := hh
        · omega
        · simp [hf] at hh
      simp only [schedule, if_neg hFirst, Nat.add_assoc, Bool.true_eq_false, and_false, if_false]

/-- The times R71 gives meet every hold. -/
theorem conforms_schedule (t h : Nat) (first : Bool) (es : List Event) :
    conforms t h (schedule t h first es).2 es (schedule t h first es).1 = true := by
  induction es generalizing t h first with
  | nil => simp [schedule, conforms]
  | cons e es ih =>
    cases e with
    | hold n => simpa [schedule, conforms] using ih t (h + n) first
    | set w =>
      simp only [schedule, conforms, beq_self_eq_true, Bool.true_and, ih, Bool.and_true, decide_eq_true_eq]
      split <;> omega

/-! ## The events still to come

`Regs.eventsToCome` is the rest of the Level E list of the request in flight, from the end of the phase on. -/

/-- The events of a nibble period, its settle lengthened by `g`, from the end of the phase on (R58, R60). -/
def nibbleEventsFrom (p : Params) (g : Nat) (n : Nibble) : Phase → List Event
  | .idle | .wait | .settle => []
  | .rs => nibbleEvents p n ++ holdFor g
  | .db => [.set (.setEN false)] ++ holdFor p.nEnLow ++ [.set (.setEN true)] ++ holdFor p.nEnHigh ++ [.set (.setEN false)]
      ++ holdFor p.nSettle ++ holdFor g
  | .enlo => [.set (.setEN true)] ++ holdFor p.nEnHigh ++ [.set (.setEN false)] ++ holdFor p.nSettle ++ holdFor g
  | .enhi => [.set (.setEN false)] ++ holdFor p.nSettle ++ holdFor g

/-- The events of an initializer step (R74, R75). -/
def stepEvents (p : Params) (k : Fin 9) : List Event :=
  match stepByte p k with
  | none => holdFor p.nPowerup
  | some b => if stepSingle k then nibCmdEvents p (hiNibble b) (stepGuard p k) else byteEvents p .command b

/-- The events of the low nibble, if it is still to come. -/
def Regs.secondNibbleEvents (p : Params) (r : Regs) : List Event :=
  if r.half = false ∧ r.single = false then nibbleEventsFrom p (r.guard p) (loNibble r.val) .rs else []

/-- The events of the steps of an INIT in flight after the one in progress. -/
def Regs.nextStepsEvents (p : Params) (r : Regs) : List Event :=
  if r.inInit then (laterSteps r.istep).flatMap (stepEvents p) else []

/-- The events of the request in flight from the end of the phase on. -/
def Regs.eventsToCome (p : Params) (r : Regs) : List Event :=
  match r.ph with
  | .idle => []
  | .wait => r.nextStepsEvents p
  | .rs | .db | .enlo | .enhi | .settle =>
    nibbleEventsFrom p (r.guard p) (hiNibble r.val) r.ph ++ r.secondNibbleEvents p ++ r.nextStepsEvents p

/-- The times of the events still to come, the next edge being `k`: the phase ends when its timer has run down. -/
def Regs.scheduleToCome (p : Params) (k : Nat) (r : Regs) : List (Nat × LineWrite) × Nat :=
  schedule (k + r.tmr) 0 true (r.eventsToCome p)

/-- The writes of edge `k`, and then the rest of a schedule. -/
def writesThen (k : Nat) (ws : List LineWrite) (rest : List (Nat × LineWrite) × Nat) : List (Nat × LineWrite) × Nat :=
  (ws.map (fun w => (k, w)) ++ rest.1, rest.2)

section
variable {p : Params} {r : Regs}

theorem schedule_set (k : Nat) (w : LineWrite) (es : List Event) :
    schedule k 0 true (.set w :: es) = writesThen k [w] (schedule k 0 false es) := by
  simp [schedule, writesThen]

/-- A write that directly follows another comes one edge later. -/
theorem schedule_then_write (k : Nat) (ht : r.tmr = 0) {w : LineWrite} {es : List Event} (hes : r.eventsToCome p = .set w :: es) :
    schedule k 0 false (r.eventsToCome p) = r.scheduleToCome p (k + 1) := by
  simp [Regs.scheduleToCome, ht, hes, schedule]

/-- After holds the next write comes when a phase of that dwell is over. -/
theorem schedule_then_dwell (k h g : Nat) (hh : 1 ≤ h) (ht : r.tmr = h + g - 1) :
    schedule k 0 false (holdFor h ++ (holdFor g ++ r.eventsToCome p)) = r.scheduleToCome p (k + 1) := by
  have hEnd : k + 1 + (h + g - 1) = k + (h + g) := by omega
  rw [schedule_holdFor, schedule_holdFor, Nat.zero_add, Regs.scheduleToCome, ht, hEnd]
  exact schedule_of_hold k (h + g) 0 false _ (.inl (by omega))

/-- The end of a phase that EN's next phase follows makes its write at edge `k` and leaves the rest of the schedule. -/
theorem Regs.schedule_into_dwell (k : Nat) {r' : Regs} {w : LineWrite} {h g : Nat} (hh : 1 ≤ h) (ht : r'.tmr = h + g - 1)
    (hp : r'.ph ≠ .idle) (hEvents : r.eventsToCome p = .set w :: (holdFor h ++ (holdFor g ++ r'.eventsToCome p))) :
    schedule k 0 true (r.eventsToCome p) =
      writesThen k [w] (if r'.ph = .idle then ([], k) else r'.scheduleToCome p (k + 1)) := by
  rw [hEvents, schedule_set, schedule_then_dwell k h g hh ht, if_neg hp]

/-- The events of a step other than the power-up wait: RS low, then its one or two nibbles. -/
theorem stepEvents_of_ne_zero {k : Fin 9} (hk : k ≠ 0) (v : Byte) :
    stepEvents p k = .set (.setRS false) ::
      (nibbleEventsFrom p (stepGuard p k) (hiNibble ((stepByte p k).getD v)) .rs ++
        if stepSingle k then [] else nibbleEventsFrom p (stepGuard p k) (loNibble ((stepByte p k).getD v)) .rs) := by
  have hGuard : stepSingle k = false → stepGuard p k = 0 := by
    revert k
    simp [Fin.forall_fin_succ, stepSingle, stepKind, stepGuard]
  rw [stepEvents, stepByte_of_ne_zero p hk v]
  cases hs : stepSingle k with
  | true => simp [nibCmdEvents, nibbleEventsFrom]
  | false => simp [byteEvents, nibbleEventsFrom, hGuard hs, DataMode.level]

/-- The events of the steps after `k` begin with RS low; the others are those to come when the next step has started. -/
theorem Regs.startStep_eventsToCome (hi : r.inInit = true) {k : Fin 9} (hk : k ≠ 8) :
    (laterSteps k).flatMap (stepEvents p) = .set (.setRS false) :: (r.startStep p (k + 1)).eventsToCome p := by
  rw [laterSteps_succ hk, List.flatMap_cons, stepEvents_of_ne_zero (istep_succ_ne_zero hk) r.val]
  simp only [Regs.eventsToCome, Regs.secondNibbleEvents, Regs.nextStepsEvents, Regs.guard, Regs.single,
    Regs.startStep_ph, Regs.startStep_inInit, Regs.startStep_istep, Regs.startStep_half, hi, Bool.true_and, if_true,
    List.cons_append]
  cases stepSingle (k + 1) <;> rfl

/-- The start of a step makes its write at edge `k` and leaves the rest of the schedule. -/
theorem Regs.schedule_startStep (k : Nat) (hi : r.inInit = true) {j : Fin 9} (hj : j ≠ 8) :
    schedule k 0 true ((laterSteps j).flatMap (stepEvents p)) =
      writesThen k [.setRS false] ((r.startStep p (j + 1)).scheduleToCome p (k + 1)) := by
  rw [Regs.startStep_eventsToCome hi hj, schedule_set, schedule_then_write k rfl rfl]

/-- The end of `SETTLE` writes the low nibble or starts the next step, and leaves the rest; or the schedule is over. -/
theorem Regs.schedule_settleEnd (hp : r.ph = .settle) (k : Nat) :
    schedule k 0 true (r.secondNibbleEvents p ++ r.nextStepsEvents p) = writesThen k r.phaseEndWrites
      (if (r.settleEnd p).ph = .idle then ([], k) else (r.settleEnd p).scheduleToCome p (k + 1)) := by
  have hSecond (hl : r.half = true ∨ r.single = true) : r.secondNibbleEvents p = [] := by
    obtain hl | hl := hl <;> simp [Regs.secondNibbleEvents, hl]
  rw [Regs.phaseEndWrites, hp]
  obtain ⟨hh, hs, hEnd⟩ | ⟨hl, hi, hk, hEnd⟩ | ⟨hl, hi, hk, hEnd⟩ | ⟨hh, hi, hEnd⟩ := r.settleEnd_cases p <;> rw [hEnd]
  · have hLow : r.secondNibbleEvents p ++ r.nextStepsEvents p = .set (.setDB (loNibble r.val)) ::
        Regs.eventsToCome p { r with half := true, ph := .db, db := loNibble r.val, tmr := 0 } := by
      rw [Regs.secondNibbleEvents, if_pos ⟨hh, hs⟩, Regs.eventsToCome, Regs.secondNibbleEvents, if_neg (by simp), List.append_nil]
      rfl
    rw [hLow, schedule_set]
    simp only [hh, hs, and_self, if_true, reduceCtorEq, if_false]
    exact congrArg (writesThen k _) (schedule_then_write k rfl rfl)
  · have hLast : laterSteps 8 = [] := by decide
    rw [hSecond hl]
    obtain hl | hl := hl <;> simp [Regs.nextStepsEvents, hl, hi, hk, hLast, schedule, writesThen]
  · rw [hSecond hl, Regs.nextStepsEvents, if_pos hi, List.nil_append, Regs.schedule_startStep k hi hk]
    obtain hl | hl := hl <;> simp [hl, hi, hk]
  · simp [hSecond (.inl hh), Regs.nextStepsEvents, hh, hi, schedule, writesThen]

/-- The end of a phase but the last makes its write at edge `k` and leaves the rest of the schedule; the last ends it. -/
theorem Regs.Inv.scheduleToCome_end (h : r.Inv p) (hp : r.ph ≠ .idle) (ht : r.tmr = 0) (k : Nat) :
    r.scheduleToCome p k = writesThen k r.phaseEndWrites
      (if (r.phaseEnd p).ph = .idle then ([], k) else (r.phaseEnd p).scheduleToCome p (k + 1)) := by
  rw [Regs.scheduleToCome, ht, Nat.add_zero]
  cases hph : r.ph with
  | idle => exact absurd hph hp
  | wait =>
    obtain ⟨hi, hk⟩ := h.r29.d.1 hph
    rw [r.phaseEnd_wait p hph, Regs.eventsToCome, hph, Regs.nextStepsEvents, if_pos hi, hk, Regs.phaseEndWrites, hph]
    exact Regs.schedule_startStep k hi (by decide)
  | rs =>
    have hEvents : r.eventsToCome p = .set (.setDB (hiNibble r.val)) :: (r.phaseEnd p).eventsToCome p := by
      simp only [Regs.eventsToCome, Regs.phaseEnd, hph]
      rfl
    rw [hEvents, schedule_set, Regs.phaseEndWrites, hph, r.phaseEnd_rs p hph]
    exact congrArg (writesThen k _) (schedule_then_write k rfl rfl)
  | db =>
    rw [Regs.phaseEndWrites, hph, r.phaseEnd_db p hph]
    refine Regs.schedule_into_dwell k (g := 0) p.nEnLow_pos rfl (by simp) ?_
    simp only [Regs.eventsToCome, hph, nibbleEventsFrom, List.append_assoc, List.cons_append]
    rfl
  | enlo =>
    rw [Regs.phaseEndWrites, hph, r.phaseEnd_enlo p hph]
    refine Regs.schedule_into_dwell k (g := 0) p.nEnHigh_pos rfl (by simp) ?_
    simp only [Regs.eventsToCome, hph, nibbleEventsFrom, List.append_assoc, List.cons_append]
    rfl
  | enhi =>
    rw [Regs.phaseEndWrites, hph, r.phaseEnd_enhi p hph]
    refine Regs.schedule_into_dwell k p.nSettle_pos rfl (by simp) ?_
    simp only [Regs.eventsToCome, hph, nibbleEventsFrom, List.append_assoc, List.cons_append]
    rfl
  | settle =>
    have hEvents : r.eventsToCome p = r.secondNibbleEvents p ++ r.nextStepsEvents p := by
      simp only [Regs.eventsToCome, hph, nibbleEventsFrom, List.nil_append]
    rw [hEvents, r.phaseEnd_settle p hph]
    exact Regs.schedule_settleEnd hph k

end

/-- While the timer runs the schedule stays. -/
theorem Regs.scheduleToCome_dwell (p : Params) (r : Regs) (k : Nat) (ht : r.tmr ≠ 0) :
    r.scheduleToCome p k = Regs.scheduleToCome p (k + 1) { r with tmr := r.tmr - 1 } := by
  have hEnd : k + r.tmr = k + 1 + (r.tmr - 1) := by omega
  rw [Regs.scheduleToCome, hEnd]
  rfl

/-- An edge of a busy block without reset makes the writes that the schedule has for it. -/
theorem State.after_scheduleToCome (s : State) (h : s.Inv) (hr : s.ports.rst = false) (hp : s.regs.ph ≠ .idle) (k : Nat) :
    s.regs.scheduleToCome s.params k = writesThen k s.lineWrites
      (if s.after.regs.ph = .idle then ([], k) else s.after.regs.scheduleToCome s.params (k + 1)) := by
  by_cases ht : s.regs.tmr = 0
  · rw [h.scheduleToCome_end hp ht, s.after_phaseEnd hr hp ht]
    simp [State.lineWrites, hr, hp, ht]
  · rw [s.regs.scheduleToCome_dwell _ _ ht, s.after_dwell hr hp ht]
    simp [State.lineWrites, hr, hp, ht, writesThen]

/-- The writes of a course are the schedule's, and its end is the return to `IDLE`. -/
theorem writesDuring_course (k n : Nat) (s : State) (h : s.Inv) (hr : NoResetDuring (n + 1) s)
    (hn : (s.regs.course s.params).length = n + 1) :
    (writesDuring k (n + 1) s, k + n) = s.regs.scheduleToCome s.params k := by
  induction n generalizing k s with
  | zero =>
    obtain ⟨hrst, -⟩ := (noResetDuring_succ _ s).1 hr
    have hp : s.regs.ph ≠ .idle := fun hp => by simp [Regs.course_idle hp] at hn
    have hIdle : s.after.regs.ph = .idle := by
      rw [s.after_course h hrst hp, List.length_cons, Nat.add_right_cancel_iff, List.length_eq_zero_iff] at hn
      exact Regs.course_eq_nil_iff.1 hn
    rw [s.after_scheduleToCome h hrst hp k, if_pos hIdle, writesDuring_succ]
    rfl
  | succ n ih =>
    obtain ⟨hrst, hrest⟩ := (noResetDuring_succ _ s).1 hr
    have hp : s.regs.ph ≠ .idle := fun hp => by simp [Regs.course_idle hp] at hn
    rw [s.after_course h hrst hp, List.length_cons, Nat.add_right_cancel_iff] at hn
    have hBusy : s.after.regs.ph ≠ .idle := fun hp => by simp [Regs.course_idle hp] at hn
    have ih := ih (k + 1) s.after (s.after_inv h) hrest (by rwa [s.after_params])
    rw [s.after_params] at ih
    rw [s.after_scheduleToCome h hrst hp k, if_neg hBusy, ← ih, writesDuring_succ]
    exact Prod.ext rfl (Nat.add_right_comm k n 1)

/-- The list of INIT is the power-up hold and the steps after step 0. -/
theorem initEvents_eq (p : Params) : initEvents p = holdFor p.nPowerup ++ (laterSteps 0).flatMap (stepEvents p) := by
  have hSteps : laterSteps 0 = [1, 2, 3, 4, 5, 6, 7, 8] := by decide
  simp [initEvents, hSteps, stepEvents, stepByte, stepSingle, stepKind, stepGuard]

/-- The list of a request accepted in `IDLE` is the write of its acceptance and what is then to come. -/
theorem Regs.Inv.accept_scheduleToCome {p : Params} {r : Regs} (h : r.Inv p) (hp : r.ph = .idle) (i : Instr) :
    schedule 0 0 true (requestEvents p i) = writesThen 0 (acceptWrites i) ((r.accept p i).scheduleToCome p 1) := by
  obtain ⟨-, hi, -⟩ := h.r29.a hp
  have hSend (m : DataMode) (v : Byte) :
      schedule 0 0 true (byteEvents p m v) = writesThen 0 [.setRS m.level] ((r.acceptSend m v).scheduleToCome p 1) := by
    have hEvents : byteEvents p m v = .set (.setRS m.level) :: (r.acceptSend m v).eventsToCome p := by
      simp [byteEvents, Regs.eventsToCome, nibbleEventsFrom, Regs.secondNibbleEvents, Regs.nextStepsEvents, Regs.guard,
        Regs.single, hi]
    rw [hEvents, schedule_set, schedule_then_write 0 rfl rfl]
  cases i with
  | sendCmd v => exact hSend .command v
  | sendChr v => exact hSend .char v
  | init =>
    have hEnd : 1 + (p.nPowerup - 1) = 0 + p.nPowerup := by
      have hPos := p.nPowerup_pos
      omega
    have hEvents : (r.acceptInit p).eventsToCome p = (laterSteps 0).flatMap (stepEvents p) := rfl
    rw [requestEvents, initEvents_eq, schedule_holdFor, Nat.zero_add, Regs.accept, Regs.scheduleToCome, hEvents,
      Regs.acceptInit_tmr, hEnd]
    exact schedule_of_hold 0 p.nPowerup 0 true _ (.inr rfl)

/-- The writes of a request, from its acceptance to `IDLE`, and the edge of the return: the schedule of its list. -/
theorem writesDuring_request (s : State) (h : s.Inv) (i : Instr) (hAcc : s.accepts = some i)
    (hr : NoResetDuring (requestCycles s.params i + 1) s) :
    (writesDuring 0 (requestCycles s.params i + 1) s, requestCycles s.params i) =
      schedule 0 0 true (requestEvents s.params i) := by
  obtain ⟨hrst, hp, hv, hWord⟩ := accepts_eq_some s i hAcc
  obtain ⟨-, hrest⟩ := (noResetDuring_succ _ s).1 hr
  have hWrites : s.lineWrites = acceptWrites i := by simp [State.lineWrites, hrst, hp, hv, hWord]
  have hRegs : s.after.regs = s.regs.accept s.params i := congrArg State.regs (s.after_accepts i hAcc)
  have hLength : (s.after.regs.course s.after.params).length = requestCycles s.params i := by
    rw [s.after_params, hRegs, h.accept_course hp, requestEdges_length]
  obtain ⟨n, hn⟩ := Nat.exists_eq_add_one.2 (requestCycles_pos s.params i)
  rw [hn] at hrest hLength ⊢
  have hCourse := writesDuring_course 1 n s.after (s.after_inv h) hrest hLength
  rw [s.after_params, hRegs, Nat.add_comm 1 n] at hCourse
  rw [h.accept_scheduleToCome hp i, writesDuring_succ, hWrites, ← hCourse]
  rfl

/-- Settles O43: the writes are the schedule's, which meets every hold, and the course says when the block is busy. -/
theorem ticksRefineEvents : Obligations.TicksRefineEvents := by
  intro i s h hAcc n events hr
  have hWrites := writesDuring_request s h i hAcc hr
  obtain ⟨hBusy, hIdle⟩ := busy_after_accepts s h i hAcc hr
  have hConforms := conforms_schedule 0 0 true events
  rw [← hWrites] at hConforms
  exact ⟨congrArg Prod.fst hWrites, congrArg Prod.snd hWrites.symm, hBusy, hIdle, hConforms⟩

end Sys2Proof.Machine
end

section
/-! SUPPORT. INIT (41_initializer.md): the waveform of its nine steps (R74, R76), cycle by cycle from the acceptance to `IDLE`,
and its completion (R73, R81, R83, R84). -/

namespace Sys2Proof.Machine

/-! ## The columns of the step table (R74, R76) -/

section
variable {p : Params} {k : Fin 9}

/-- A guard lengthens single nibbles only. -/
theorem stepGuard_of_not_single (hs : stepSingle k = false) : stepGuard p k = 0 := by
  revert k
  simp [Fin.forall_fin_succ, stepSingle, stepKind, stepGuard]

theorem stepLength_zero : stepLength p 0 = p.nPowerup := rfl

theorem stepLength_of_single (hs : stepSingle k = true) : stepLength p k = 1 + nibblePeriod p + stepGuard p k := by
  simp only [stepSingle, beq_iff_eq] at hs
  simp only [stepLength, hs]

theorem stepLength_of_byte (hk : k ≠ 0) (hs : stepSingle k = false) : stepLength p k = 1 + 2 * nibblePeriod p := by
  revert k
  simp [Fin.forall_fin_succ, stepSingle, stepKind, stepLength]

theorem stepLength_pred_add_one (p : Params) (k : Fin 9) : stepLength p k - 1 + 1 = stepLength p k := by
  have hPowerup := p.nPowerup_pos
  unfold stepLength
  split <;> omega

theorem stepStart_succ (p : Params) (k : Fin 9) : stepStart p (k + 1 : Nat) = stepStart p k + stepLength p k := by
  rw [stepStart, Fin.ofNat_val_eq_self]

/-- R84: step 8 ends when INIT does. -/
theorem stepStart_nine (p : Params) : stepStart p 9 = initCycles p := by
  simp [stepStart, stepLength, stepKind, stepGuard, initCycles]
  omega

/-- The cycles of a step are before the end of INIT. -/
theorem stepStart_add_lt {i : Nat} (hi : i < stepLength p k) : stepStart p k + i < initCycles p :=
  calc stepStart p k + i
    _ < stepStart p k + stepLength p k := Nat.add_lt_add_left hi _
    _ = stepStart p (k + 1 : Nat) := (stepStart_succ p k).symm
    _ ≤ stepStart p 9 := monotone_nat_of_le_succ (fun m => Nat.le_add_right (stepStart p m) _) k.isLt
    _ = initCycles p := stepStart_nine p

/-- A cycle before the start of a step is in a step before it; 9 stands for the end of INIT. -/
theorem exists_step_of_lt_stepStart {m n : Nat} (hm : m ≤ 9) (hn : n < stepStart p m) :
    ∃ (k : Fin 9) (i : Nat), i < stepLength p k ∧ n = stepStart p k + i := by
  induction m with
  | zero => exact absurd hn (Nat.not_lt_zero n)
  | succ m ih =>
    obtain hBefore | hIn := Nat.lt_or_ge n (stepStart p m)
    · exact ih (Nat.le_of_succ_le hm) hBefore
    · rw [stepStart_succ p ⟨m, hm⟩] at hn
      exact ⟨⟨m, hm⟩, n - stepStart p m, Nat.sub_lt_left_of_lt_add hIn hn, (Nat.add_sub_of_le hIn).symm⟩

end

/-! ## The waveform of a step (R76) -/

/-- The first nibble of a transfer ends in `SETTLE` with the timer run down. -/
theorem transferWave_first_last (p : Params) (g : Nat) (r : Regs) : transferWave p g r (nibblePeriod p + g) =
    { r with half := false, db := hiNibble r.val, en := false, ph := .settle, tmr := 0 } := by
  have hPos := nibblePeriod_pos p
  rw [transferWave, if_neg (by omega), if_pos (Nat.le_refl _), nibbleWave_last]

/-- The registers that do not move during step `k` of an INIT, and the data lines the step finds. -/
def Regs.inStep (p : Params) (r : Regs) (k : Fin 9) : Regs :=
  { r with inInit := true, initDone := false, istep := k, val := (stepByte p k).getD r.val, rs := false,
           db := stepLastNibble p r (k - 1) }

section
variable {p : Params} {r : Regs} {k : Fin 9}

theorem Regs.inStep_single : (r.inStep p k).single = stepSingle k := Bool.true_and _

theorem Regs.inStep_guard : (r.inStep p k).guard p = stepGuard p k := rfl

theorem initWave_zero (i : Nat) : initWave p r 0 i =
    { r with inInit := true, initDone := false, istep := 0, half := false, ph := .wait, tmr := p.nPowerup - 1 - i } := rfl

theorem initWave_of_ne_zero (hk : k ≠ 0) (i : Nat) :
    initWave p r k i = transferWave p (stepGuard p k) (r.inStep p k) i := by
  rw [initWave, stepByte_of_ne_zero p hk r.val]
  rfl

theorem initWave_ph_ne_idle (i : Nat) : (initWave p r k i).ph ≠ .idle := by
  by_cases hk : k = 0
  · simp [hk, initWave_zero]
  · rw [initWave_of_ne_zero hk]
    exact transferWave_ph_ne_idle _ _

theorem nibbleWave_flags (g : Nat) (half : Bool) (n : Nibble) (i : Nat) :
    (nibbleWave p g half n r i).inInit = r.inInit ∧ (nibbleWave p g half n r i).initDone = r.initDone := by
  unfold nibbleWave
  dsimp only
  split_ifs <;> exact ⟨rfl, rfl⟩

theorem transferWave_flags (g i : Nat) :
    (transferWave p g r i).inInit = r.inInit ∧ (transferWave p g r i).initDone = r.initDone := by
  unfold transferWave
  split_ifs
  · exact ⟨rfl, rfl⟩
  · exact nibbleWave_flags _ _ _ _
  · exact nibbleWave_flags _ _ _ _

/-- In every cycle of an INIT the flags say that it is in flight (R81). -/
theorem initWave_flags (i : Nat) : (initWave p r k i).inInit = true ∧ (initWave p r k i).initDone = false := by
  by_cases hk : k = 0
  · subst hk
    exact ⟨rfl, rfl⟩
  · rw [initWave_of_ne_zero hk]
    exact transferWave_flags _ _

/-- Whatever the step before has left in the registers that a step loads, the start of step `k + 1` is its cycle 0. -/
theorem startStep_eq_initWave {q : Regs} (hk : k ≠ 8) (he : q.en = r.en) (hdb : q.db = stepLastNibble p r k)
    (hi : q.inInit = true) (hd : q.initDone = false) : q.startStep p (k + 1) = initWave p r (k + 1) 0 := by
  have hByte := istep_succ_ne_zero hk
  have hVal : (stepByte p (k + 1)).getD q.val = (stepByte p (k + 1)).getD r.val := by
    rw [stepByte_of_ne_zero p hByte r.val]
    rfl
  rw [initWave_of_ne_zero hByte]
  simp [Regs.startStep, transferWave, Regs.inStep, hVal, he, hdb, hi, hd]

/-- Inside a step one edge of the sequencer moves the waveform one cycle on. -/
theorem initWave_advance (he : r.en = false) {i : Nat} (hi : i + 1 < stepLength p k) :
    (initWave p r k i).advance p = initWave p r k (i + 1) := by
  by_cases hk : k = 0
  · subst hk
    rw [stepLength_zero] at hi
    rw [Regs.advance_dwell _ _ (initWave_ph_ne_idle i) (by simp only [initWave_zero]; omega)]
    rfl
  rw [initWave_of_ne_zero hk, initWave_of_ne_zero hk]
  obtain hFirst | hSecond := Nat.lt_or_ge i (nibblePeriod p + stepGuard p k)
  · exact transferWave_advance_first _ i Regs.inStep_guard.symm he hFirst
  cases hs : stepSingle k with
  | true =>
    rw [stepLength_of_single hs] at hi
    omega
  | false =>
    have hg := stepGuard_of_not_single (p := p) hs
    rw [stepLength_of_byte hk hs] at hi
    rw [hg, Nat.add_zero] at hSecond
    obtain ⟨j, rfl⟩ := Nat.exists_eq_add_of_le hSecond
    rw [hg]
    exact transferWave_advance_second j (Regs.inStep_guard.trans hg) (Regs.inStep_single.trans hs) (by omega)

/-- The registers at the end of a step other than the power-up wait: its last `SETTLE`, the timer run down. -/
def Regs.stepEnd (p : Params) (r : Regs) (k : Fin 9) : Regs :=
  { r.inStep p k with half := !stepSingle k, db := stepLastNibble p r k, en := false, ph := .settle, tmr := 0 }

theorem initWave_last (hk : k ≠ 0) : initWave p r k (stepLength p k - 1) = r.stepEnd p k := by
  rw [initWave_of_ne_zero hk, Regs.stepEnd, stepLastNibble, stepByte_of_ne_zero p hk r.val]
  cases hs : stepSingle k with
  | true =>
    rw [stepLength_of_single hs, Nat.add_assoc, Nat.add_sub_cancel_left, transferWave_first_last]
    rfl
  | false =>
    rw [stepLength_of_byte hk hs, Nat.add_sub_cancel_left, stepGuard_of_not_single hs, transferWave_last]
    rfl

/-- No nibble of the step is still to come. -/
theorem Regs.stepEnd_over : ¬ ((r.stepEnd p k).half = false ∧ (r.stepEnd p k).single = false) := by
  have hHalf : (r.stepEnd p k).half = !stepSingle k := rfl
  have hSingle : (r.stepEnd p k).single = stepSingle k := Bool.true_and _
  cases hs : stepSingle k <;> simp [hHalf, hSingle, hs]

/-- The edge at the end of a step starts the next one or, after step 8, ends the INIT. -/
theorem Regs.stepEnd_advance : (r.stepEnd p k).advance p =
    if k = 8 then { r.stepEnd p k with inInit := false, initDone := true, istep := 0, ph := .idle }
    else (r.stepEnd p k).startStep p (k + 1) := by
  rw [Regs.advance_end _ _ (by simp [Regs.stepEnd]) rfl, Regs.phaseEnd_settle _ _ rfl, Regs.settleEnd,
    if_neg Regs.stepEnd_over]
  rfl

/-- The edge after the last cycle of a step but step 8 begins the next step. -/
theorem initWave_next_step (he : r.en = false) (hk : k ≠ 8) :
    (initWave p r k (stepLength p k - 1)).advance p = initWave p r (k + 1) 0 := by
  by_cases h0 : k = 0
  · subst h0
    have hTimer : (initWave p r 0 (stepLength p 0 - 1)).tmr = 0 := Nat.sub_self (p.nPowerup - 1)
    rw [Regs.advance_end _ _ (initWave_ph_ne_idle _) hTimer, Regs.phaseEnd_wait _ _ rfl]
    exact startStep_eq_initWave hk rfl rfl rfl rfl
  · rw [initWave_last h0, Regs.stepEnd_advance, if_neg hk]
    exact startStep_eq_initWave hk he.symm rfl rfl rfl

/-- The registers when an INIT is over (R76, R81). -/
def Regs.initialized (p : Params) : Regs :=
  { rs := false, en := false, db := loNibble p.cClear, val := p.cClear, half := true, ph := .idle, tmr := 0, inInit := false,
    istep := 0, initDone := true }

/-- The edge after the last cycle of step 8 leads to `IDLE`. -/
theorem initWave_to_idle : (initWave p r 8 (stepLength p 8 - 1)).advance p = Regs.initialized p := by
  rw [initWave_last (by decide), Regs.stepEnd_advance, if_pos rfl]
  rfl

/-! ## The steps one after the other -/

/-- `i` edges after the start of a step the waveform is in cycle `i`. -/
theorem advance_iterate_step (he : r.en = false) {i : Nat} (hi : i < stepLength p k) :
    (Regs.advance p)^[i] (initWave p r k 0) = initWave p r k i := by
  induction i with
  | zero => rfl
  | succ i ih => rw [Function.iterate_succ_apply', ih (Nat.lt_of_succ_lt hi), initWave_advance he hi]

/-- A step takes its length: one more edge than leads to its last cycle. -/
theorem advance_iterate_stepLength (he : r.en = false) : (Regs.advance p)^[stepLength p k] (initWave p r k 0) =
    (initWave p r k (stepLength p k - 1)).advance p := by
  have hLast := stepLength_pred_add_one p k
  rw [← advance_iterate_step he (Nat.lt_of_succ_le hLast.le), ← Function.iterate_succ_apply' (Regs.advance p),
    Nat.succ_eq_add_one, hLast]

theorem advance_iterate_stepStart_succ (k : Fin 9) (q : Regs) : (Regs.advance p)^[stepStart p (k + 1 : Nat)] q =
    (Regs.advance p)^[stepLength p k] ((Regs.advance p)^[stepStart p k] q) := by
  rw [stepStart_succ, Nat.add_comm, Function.iterate_add_apply]

/-- Every step starts at its cycle. -/
theorem advance_iterate_stepStart (he : r.en = false) (k : Fin 9) :
    (Regs.advance p)^[stepStart p k] (r.acceptInit p) = initWave p r k 0 := by
  induction k using Fin.induction with
  | zero => rfl
  | succ k ih =>
    have hk : k.castSucc ≠ 8 := k.castSucc_lt_last.ne
    have hNext : k.castSucc + 1 = k.succ := Fin.coeSucc_eq_succ
    calc (Regs.advance p)^[stepStart p k.succ] (r.acceptInit p)
      _ = (Regs.advance p)^[stepLength p k.castSucc] ((Regs.advance p)^[stepStart p k.castSucc] (r.acceptInit p)) :=
        advance_iterate_stepStart_succ k.castSucc _
      _ = initWave p r k.succ 0 := by
        rw [ih, advance_iterate_stepLength he, initWave_next_step he hk, hNext]

/-- The sequencer goes through the waveform of INIT. -/
theorem advance_iterate_init (he : r.en = false) {i : Nat} (hi : i < stepLength p k) :
    (Regs.advance p)^[stepStart p k + i] (r.acceptInit p) = initWave p r k i := by
  rw [Nat.add_comm, Function.iterate_add_apply, advance_iterate_stepStart he, advance_iterate_step he hi]

/-- After the length of INIT the sequencer is in `IDLE`. -/
theorem advance_iterate_initCycles (he : r.en = false) :
    (Regs.advance p)^[initCycles p] (r.acceptInit p) = Regs.initialized p := by
  rw [← stepStart_nine]
  calc (Regs.advance p)^[stepStart p 9] (r.acceptInit p)
    _ = (Regs.advance p)^[stepLength p 8] ((Regs.advance p)^[stepStart p 8] (r.acceptInit p)) :=
      advance_iterate_stepStart_succ 8 _
    _ = (Regs.advance p)^[stepLength p 8] (initWave p r 8 0) := congrArg _ (advance_iterate_stepStart he 8)
    _ = Regs.initialized p := by rw [advance_iterate_stepLength he, initWave_to_idle]

end

/-! ## An INIT from its acceptance to `IDLE` -/

section
variable {s : State} (h : s.Inv) (hp : s.regs.ph = .idle)
include h hp

/-- Up to the end of INIT, whatever the inputs, the registers are those of the sequencer left to itself. -/
theorem init_regs {n : Nat} (hn : n ≤ initCycles s.params) (hr : NoResetDuring n (s.accepted .init)) :
    (State.after^[n] (s.accepted .init)).regs = (Regs.advance s.params)^[n] (s.regs.acceptInit s.params) := by
  obtain ⟨-, -, -, he⟩ := h.r29.a hp
  refine busy_run_regs n (s.accepted .init) (fun c hc => ?_) hr
  have hc := Nat.lt_of_lt_of_le hc hn
  rw [← stepStart_nine] at hc
  obtain ⟨k, i, hi, rfl⟩ := exists_step_of_lt_stepStart (Nat.le_refl 9) hc
  have hBusy := initWave_ph_ne_idle (p := s.params) (r := s.regs) (k := k) i
  rw [← advance_iterate_init he hi] at hBusy
  exact hBusy

/-- In every cycle of an INIT the registers are those of the waveform. -/
theorem init_regs_in_step {k : Fin 9} {i : Nat} (hi : i < stepLength s.params k)
    (hr : NoResetDuring (stepStart s.params k + i) (s.accepted .init)) :
    (State.after^[stepStart s.params k + i] (s.accepted .init)).regs = initWave s.params s.regs k i := by
  obtain ⟨-, -, -, he⟩ := h.r29.a hp
  rw [init_regs h hp (stepStart_add_lt hi).le hr, advance_iterate_init he hi]

/-- An INIT leaves the registers as initialized. -/
theorem init_regs_at_end (hr : NoResetDuring (initCycles s.params) (s.accepted .init)) :
    (State.after^[initCycles s.params] (s.accepted .init)).regs = Regs.initialized s.params := by
  obtain ⟨-, -, -, he⟩ := h.r29.a hp
  rw [init_regs h hp (Nat.le_refl _) hr, advance_iterate_initCycles he]

end

/-- Settles O37: every cycle is some cycle of a step, and each edge moves the waveform one cycle on. -/
theorem initWaveform : Obligations.InitWaveform := by
  intro s h hp
  refine ⟨s.accepted .init, exec_idle .init s hp, fun k i hi hr => ?_, fun hr => ?_, stepStart_nine s.params⟩
  · exact ⟨_, (runs_iff _ _ _).2 rfl, init_regs_in_step h hp hi hr⟩
  · rw [stepStart_nine] at hr ⊢
    exact ⟨_, (runs_iff _ _ _).2 rfl, request_idle h hp .init hr⟩

/-- Settles O38: the flags are those of the waveform's cycles, what is latched is the contribution. -/
theorem initCompletes : Obligations.InitCompletes := by
  intro s h hp
  refine ⟨s.accepted .init, exec_idle .init s hp, fun hr => ⟨fun n t hn ht => ?_, _, (runs_iff _ _ _).2 rfl,
    init_regs_at_end h hp hr, request_latched h hp .init hr, ?_, ?_⟩⟩
  · have hr := hr.mono hn.le
    rw [← stepStart_nine] at hn
    obtain ⟨k, i, hi, rfl⟩ := exists_step_of_lt_stepStart (Nat.le_refl 9) hn
    rw [runs_iff] at ht
    rw [ht, init_regs_in_step h hp hi hr]
    exact ⟨bne_iff_ne.2 (initWave_ph_ne_idle i), initWave_flags i⟩
  · rw [iterate_after_params]
    rfl
  · rw [iterate_after_freeCount _ _ hr]
    rfl

end Sys2Proof.Machine
end

section
/-! SUPPORT. Faults and the idle block (60_exceptions.md R85, R98): both read off what a step and a request answer. -/

namespace Sys2Proof.Machine

/-- Settles O8: every step answers the state after the edge, every request the state in which it was offered. -/
theorem everyStepGivesANextState : Obligations.EveryStepGivesANextState :=
  ⟨fun s => ⟨s.after, step_eq_after s⟩, fun i s => ⟨s.offered (s.regs.accept s.params i), exec_eq i s⟩⟩

/-- Settles O13: the state after a quiet edge of an idle block is the one with the input consumed. -/
theorem idleHoldsWithoutRequest : Obligations.IdleHoldsWithoutRequest := by
  intro s hReset hQuiet hIdle
  rw [step_eq_after, State.after_quiet s hReset hIdle hQuiet]

end Sys2Proof.Machine
end

section
/-! SUPPORT. The reset edge (70_reset_and_hazards.md R99 to R101): the registers and the ghost history after it, read off
`State.resetEdge`; and the rounding of durations to ticks (R107). -/

namespace Sys2Proof.Machine

/-! ## The reset edge (R99 to R101) -/

theorem State.accepts_of_reset (s : State) (hReset : s.ports.rst = true) : s.accepts = none := by
  simp [State.accepts, hReset]

theorem State.after_reset_regs (s : State) (hReset : s.ports.rst = true) : s.after.regs = Regs.reset := by
  rw [s.after_reset hReset, State.resetEdge_regs]

/-- Settles O10: the registers after the edge are `Regs.reset`, whose phase is the one in which a word is accepted. -/
theorem resetWinsOverEverything : Obligations.ResetWinsOverEverything := by
  intro s hReset
  have hRegs := s.after_reset_regs hReset
  refine ⟨s.accepts_of_reset hReset, s.after, step_eq_after s, hRegs, ?_, fun hReleased hOffered => ?_⟩
  · rw [hRegs]
    rfl
  · have hIdle : s.after.regs.ph = .idle := by rw [hRegs]; rfl
    exact s.after.accepts_of_offer hReleased hIdle hOffered

/-- Settles O11: the ports are functions of the registers, and the edge leaves the registers of `State.reset`. -/
theorem portsAfterReset : Obligations.PortsAfterReset := by
  refine ⟨by decide, fun s t hReset hStep => ?_⟩
  rw [(step_next_iff s t).1 hStep, s.after_reset_regs hReset]
  rfl

/-- Settles O12: by the two cases of `en` in the reset edge. -/
theorem resetLatchesOnlyIfEnWasHigh : Obligations.ResetLatchesOnlyIfEnWasHigh := by
  intro s t hReset hStep
  obtain rfl := (step_next_iff s t).1 hStep
  refine ⟨s.after_params, fun hHigh => ?_, fun hLow => ?_⟩ <;> rw [s.after_reset hReset]
  · simp [State.resetEdge_latched, State.resetEdge_freeCount, hHigh]
  · simp [State.resetEdge_latched, State.resetEdge_freeCount, hLow]

/-! ## Durations in ticks (R107) -/

/-- The count of a duration is the least number of ticks, one at least, that covers it. -/
theorem ticksFor_le_iff {tTick : Nat} (hTick : 0 < tTick) (t n : Nat) :
    ticksFor t tTick ≤ n ↔ 1 ≤ n ∧ t ≤ n * tTick := by
  have hCeil : (t + (tTick - 1)) / tTick = t ⌈/⌉ tTick := by
    rw [Nat.ceilDiv_eq_add_pred_div, Nat.add_sub_assoc hTick]
  rw [ticksFor, hCeil, max_le_iff, ceilDiv_le_iff_le_mul hTick, Nat.mul_comm]

theorem lt_ticksFor_iff {tTick : Nat} (hTick : 0 < tTick) (t n : Nat) :
    n < ticksFor t tTick ↔ (1 ≤ n → n * tTick < t) := by
  rw [← not_le, ticksFor_le_iff hTick, not_and, not_le]

/-- Settles O47: each part is an instance of `ticksFor_le_iff`, the first at the count itself. -/
theorem ticksCoverTheDuration : Obligations.TicksCoverTheDuration := by
  refine ⟨fun t tTick hTick => ?_, fun tTick hSlow => ?_, fun tTick hTick hFast => ⟨?_, ?_⟩⟩
  · obtain ⟨hOne, hCovers⟩ := (ticksFor_le_iff hTick t _).1 le_rfl
    exact ⟨hCovers, hOne, fun n hn hCovered => (ticksFor_le_iff hTick t n).2 ⟨hn, hCovered⟩⟩
  · have hAtMost : ticksFor 1000 tTick ≤ 1 := (ticksFor_le_iff (by omega) _ _).2 (by omega)
    exact hAtMost.antisymm (le_max_left _ _)
  · exact (lt_ticksFor_iff hTick _ _).2 (by omega)
  · exact (lt_ticksFor_iff hTick _ _).2 (by omega)

end Sys2Proof.Machine
end
